-- ==== Sys2Proof/Word.lean ====
section
/-! DEFINITION. The value types of the block (00_scope.md R10, R11) and their plainest arithmetic (R12). -/

namespace Sys2Proof

/-- A Byte: an unsigned 8-bit value (R11). -/
abbrev Byte := BitVec 8

/-- A Reg32: an unsigned 32-bit bus value (R11). -/
abbrev Reg32 := BitVec 32

/-- A Word: four Bytes, `b0` the byte of lowest index in the byte sequence (R11). -/
structure Word where
  b0 : Byte
  b1 : Byte
  b2 : Byte
  b3 : Byte
deriving DecidableEq, Repr, Inhabited

/-- The Word `[0, 0, 0, 0]` (42_key_expansion.md R128; the reset value of KEY and RK, 10_state.md R36). -/
def Word.zero : Word := ⟨0, 0, 0, 0⟩

/-- `A XOR B` on Words: bytewise (R12, 42_key_expansion.md R120). -/
def Word.xor (a b : Word) : Word := ⟨a.b0 ^^^ b.b0, a.b1 ^^^ b.b1, a.b2 ^^^ b.b2, a.b3 ^^^ b.b3⟩

end Sys2Proof
end

