-- ==== Sys2Proof/Syntax.lean ====
section
/-! DEFINITION. The syntax: commands, instructions (one constructor per row of the opcode table), host transactions,
the registers of the address map and the bit patterns an instruction is written as. -/

namespace Sys2Proof

/-- The three commands a CMD write can carry (30_encoding.md R72). Operands are plain unsigned numbers (R73). -/
inductive Command where
  | config (klen : Nat)
  | expand (kbytes : Nat)
  | mulx (b : Byte) (n : Nat)
deriving DecidableEq, Repr

/-- The instructions: the rows of the opcode table. A command row stands for the CMD write that carries the
command (30_encoding.md R74, R75; entry 11); the other rows are the admitted host transactions (R78). -/
inductive Instr where
  | config (klen : Nat)
  | expand (kbytes : Nat)
  | mulx (b : Byte) (n : Nat)
  | wrCmd (v : Reg32)
  | wrKey (i : Fin 8) (v : Reg32)
  | rdStatus
  | rdCfg
  | rdMulxRes
  | rdRk (w : Fin 60)
deriving DecidableEq, Repr

/-- A command as an instruction. -/
def Command.toInstr : Command → Instr
  | .config klen => .config klen
  | .expand kbytes => .expand kbytes
  | .mulx b n => .mulx b n

/-- The 72 registers of the address map (20_memory.md R44, 10_state.md R21). -/
inductive Reg where
  | cmd
  | status
  | cfg
  | mulxRes
  | key (i : Fin 8)
  | rk (w : Fin 60)
deriving DecidableEq, Repr

/-- A host transaction: the tuple `(we, size, addr, wdata)` (20_memory.md R41, 30_encoding.md R78).
A read uses no `wdata` (entry 22). -/
structure BusTxn where
  we : Bool
  size : BitVec 2
  addr : BitVec 10
  wdata : Reg32
deriving DecidableEq, Repr

/-- The causes of a bus error (60_exceptions.md R157). -/
inductive BusCause where
  | size
  | align
  | unmapped
  | direction
  | rkInvalid
  | rkRange
deriving DecidableEq, Repr

/-- Why a command word is no command (30_encoding.md R76). -/
inductive CommandReject where
  /-- `OP` is 0x0 or 0x4 to 0xF. -/
  | badOpcode
  /-- `OP` is 0x1 to 0x3 and a reserved bit is set. -/
  | reservedBit
deriving DecidableEq, Repr

/-- The bit patterns of the opcode table: a 32-bit command word (R70), the 45-bit pattern
`{we, size, addr, wdata}` of a write, the 13-bit pattern `{we, size, addr}` of a read (R78). -/
inductive Code where
  | command (v : Reg32)
  | hostWrite (p : BitVec 45)
  | hostRead (p : BitVec 13)
deriving DecidableEq, Repr

/-- Why a bit pattern is no instruction. -/
inductive Reject where
  | illegalCommand (r : CommandReject)
  | busError (c : BusCause)
  /-- A 45-bit pattern with `we = 0`: a read has no `wdata` (R78). -/
  | readWithData
  /-- A 13-bit pattern with `we = 1`: a write has its `wdata` (R78). -/
  | writeWithoutData
deriving DecidableEq, Repr

end Sys2Proof
end

