-- ==== Sys2Proof/WellFormed.lean ====
section
/-! DEFINITION. The operand ranges of an instruction (30_encoding.md R73, R80). The register indexes need no
check: their types are `Fin 8` and `Fin 60`. -/

namespace Sys2Proof

/-- The operand ranges of a command: `KLEN` 0 to 65535, `KBYTES` 0 to 255, `N` 0 to 255 (R80). -/
def Command.wellFormed : Command → Bool
  | .config klen => decide (klen < 65536)
  | .expand kbytes => decide (kbytes < 256)
  | .mulx _ n => decide (n < 256)

/-- An instruction is well formed when its operands are in the ranges its encoding has fields for. -/
def Instr.wellFormed : Instr → Bool
  | .config klen => (Command.config klen).wellFormed
  | .expand kbytes => (Command.expand kbytes).wellFormed
  | .mulx b n => (Command.mulx b n).wellFormed
  | .wrCmd _ => true
  | .wrKey _ _ => true
  | .rdStatus => true
  | .rdCfg => true
  | .rdMulxRes => true
  | .rdRk _ => true

end Sys2Proof
end

