-- ==== Sys2Proof/Decode.lean ====
section
/-! DEFINITION. Decoding, total and rejecting by name, and the encoder written from the same tables
(30_encoding.md R70 to R78, 20_memory.md R42 to R46). -/

namespace Sys2Proof

/-- `v[3:0]`, the field `OP` (R71). -/
def opField (v : Reg32) : BitVec 4 := v.extractLsb' 0 4

/-- The command a word selects, tested in the order of R74's `case`. -/
def decodeCommand (v : Reg32) : Except CommandReject Command :=
  if opField v = 0x1 then
    if v.extractLsb' 4 12 ≠ 0 then .error .reservedBit
    else .ok (.config (v.extractLsb' 16 16).toNat)
  else if opField v = 0x2 then
    if v.extractLsb' 16 16 ≠ 0 ∨ v.extractLsb' 4 4 ≠ 0 then .error .reservedBit
    else .ok (.expand (v.extractLsb' 8 8).toNat)
  else if opField v = 0x3 then
    if v.extractLsb' 24 8 ≠ 0 ∨ v.extractLsb' 4 4 ≠ 0 then .error .reservedBit
    else .ok (.mulx (v.extractLsb' 8 8) (v.extractLsb' 16 8).toNat)
  else .error .badOpcode

/-- The register at a word-aligned offset, or none where the window is unmapped (20_memory.md R44). -/
def regAt (addr : BitVec 10) : Option Reg :=
  if addr = 0x000 then some .cmd
  else if addr = 0x004 then some .status
  else if addr = 0x008 then some .cfg
  else if addr = 0x00C then some .mulxRes
  else if h : 0x020 ≤ addr.toNat ∧ addr.toNat ≤ 0x03F then
    some (.key ⟨(addr.toNat - 0x020) / 4, by omega⟩)
  else if h : 0x100 ≤ addr.toNat ∧ addr.toNat ≤ 0x1EF then
    some (.rk ⟨(addr.toNat - 0x100) / 4, by omega⟩)
  else none

/-- The offset of a register (20_memory.md R44). -/
def Reg.offset : Reg → BitVec 10
  | .cmd => 0x000
  | .status => 0x004
  | .cfg => 0x008
  | .mulxRes => 0x00C
  | .key i => BitVec.ofNat 10 (0x020 + 4 * i.val)
  | .rk w => BitVec.ofNat 10 (0x100 + 4 * w.val)

/-- The admitted access of a register: a write of a WO register, a read of an RO register. The other direction is
`DIRECTION` (20_memory.md R44, R45). -/
def accessOf (we : Bool) (wdata : Reg32) : Reg → Except BusCause Instr
  | .cmd => if we then .ok (.wrCmd wdata) else .error .direction
  | .status => if we then .error .direction else .ok .rdStatus
  | .cfg => if we then .error .direction else .ok .rdCfg
  | .mulxRes => if we then .error .direction else .ok .rdMulxRes
  | .key i => if we then .ok (.wrKey i wdata) else .error .direction
  | .rk w => if we then .error .direction else .ok (.rdRk w)

/-- The instruction a host transaction performs, or the cause of its bus error: SIZE before ALIGN before UNMAPPED
before DIRECTION (60_exceptions.md R157). The two causes that depend on the state are the read of RK's own. -/
def decodeTxn (t : BusTxn) : Except BusCause Instr :=
  if t.size ≠ 2 then .error .size
  else if t.addr.extractLsb' 0 2 ≠ 0 then .error .align
  else
    match regAt t.addr with
    | none => .error .unmapped
    | some r => accessOf t.we t.wdata r

/-- The transaction a 45-bit pattern `{we, size, addr, wdata}` writes (R78). -/
def txnOfWritePattern (p : BitVec 45) : BusTxn :=
  { we := p.getLsbD 44, size := p.extractLsb' 42 2, addr := p.extractLsb' 32 10, wdata := p.extractLsb' 0 32 }

/-- The transaction a 13-bit pattern `{we, size, addr}` writes (R78). -/
def txnOfReadPattern (p : BitVec 13) : BusTxn :=
  { we := p.getLsbD 12, size := p.extractLsb' 10 2, addr := p.extractLsb' 0 10, wdata := 0 }

/-- The CMD write that carries a command word (20_memory.md R48). -/
def cmdWriteTxn (v : Reg32) : BusTxn := { we := true, size := 2, addr := 0x000, wdata := v }

/-- The host transaction that delivers a bit pattern to the block. -/
def txnOfCode : Code → BusTxn
  | .command v => cmdWriteTxn v
  | .hostWrite p => txnOfWritePattern p
  | .hostRead p => txnOfReadPattern p

/-- A transaction's bus error as a reason for refusing its pattern. -/
def rejectTxn : Except BusCause Instr → Except Reject Instr
  | .ok i => .ok i
  | .error c => .error (.busError c)

/-- The instruction a bit pattern of the opcode table stands for (R75, R78), total. -/
def decode : Code → Except Reject Instr
  | .command v =>
    match decodeCommand v with
    | .ok c => .ok c.toInstr
    | .error r => .error (.illegalCommand r)
  | .hostWrite p =>
    if p.getLsbD 44 then rejectTxn (decodeTxn (txnOfWritePattern p)) else .error .readWithData
  | .hostRead p =>
    if p.getLsbD 12 then .error .writeWithoutData else rejectTxn (decodeTxn (txnOfReadPattern p))

/-- The word of a command in format C, E or M (R72); none where an operand is out of its range
(R80: an assembler refuses it and never truncates it). -/
def encodeCommand (c : Command) : Option Reg32 :=
  if c.wellFormed then
    match c with
    | .config klen => some (BitVec.ofNat 16 klen ++ 0#8 ++ 0#4 ++ 0x1#4)
    | .expand kbytes => some (0#16 ++ BitVec.ofNat 8 kbytes ++ 0#4 ++ 0x2#4)
    | .mulx b n => some (0#8 ++ BitVec.ofNat 8 n ++ b ++ 0#4 ++ 0x3#4)
  else none

/-- The 45-bit pattern of a 4-byte write (R78). -/
def writePattern (addr : BitVec 10) (v : Reg32) : BitVec 45 := 1#1 ++ 2#2 ++ addr ++ v

/-- The 13-bit pattern of a 4-byte read (R78). -/
def readPattern (addr : BitVec 10) : BitVec 13 := 0#1 ++ 2#2 ++ addr

/-- The bit pattern of an instruction; none where it is not well formed. -/
def encode : Instr → Option Code
  | .config klen => (encodeCommand (.config klen)).map .command
  | .expand kbytes => (encodeCommand (.expand kbytes)).map .command
  | .mulx b n => (encodeCommand (.mulx b n)).map .command
  | .wrCmd v => some (.hostWrite (writePattern Reg.cmd.offset v))
  | .wrKey i v => some (.hostWrite (writePattern (Reg.key i).offset v))
  | .rdStatus => some (.hostRead (readPattern Reg.status.offset))
  | .rdCfg => some (.hostRead (readPattern Reg.cfg.offset))
  | .rdMulxRes => some (.hostRead (readPattern Reg.mulxRes.offset))
  | .rdRk w => some (.hostRead (readPattern (Reg.rk w).offset))

/-- The pattern whose bits are `w`, where the opcode table gives its row `nbits` bits in whole bytes: 16 bits hold the
13 of a read, 32 a command word, 48 the 45 of a write. A bit above the pattern's own is no pattern (entry 16). -/
def codeOfTableWord (nbits w : Nat) : Option Code :=
  if nbits ≤ 16 then if w < 2 ^ 13 then some (.hostRead (BitVec.ofNat 13 w)) else none
  else if nbits ≤ 32 then if w < 2 ^ 32 then some (.command (BitVec.ofNat 32 w)) else none
  else if w < 2 ^ 45 then some (.hostWrite (BitVec.ofNat 45 w)) else none

/-- The instruction the decoder reads from a word of the opcode table. -/
def decodeTableWord (nbits w : Nat) : Option Instr :=
  match codeOfTableWord nbits w with
  | none => none
  | some c =>
    match decode c with
    | .ok i => some i
    | .error _ => none

end Sys2Proof
end

