-- ==== Sys2Proof/Config.lean ====
section
/-! DEFINITION. What is fixed for the machine (the hardwired constant and the parameter SBOX) and the free values. -/

namespace Sys2Proof

/-- `NB`, hardwired to 4: no write changes it and the host reads it at all times (10_state.md R24, 00_scope.md R6). -/
def Config.NB : BitVec 4 := 4

/-- The parameter `SBOX`: a total function from Byte to Byte of which the block assumes nothing else (00_scope.md R9).
It has no body, so every statement holds for whatever table a realisation has (entry 1). -/
opaque Config.SBOX : Byte → Byte

/-- Free value: what the hidden working word `W` holds after an EXPAND or a reset (10_state.md R34, R36: unspecified).
Entry 3. -/
opaque Config.freeW : Nat → Word

/-- Free value: what the hidden counter `word` holds after an EXPAND or a reset (10_state.md R34, R36: unspecified).
Entry 3. -/
opaque Config.freeWord : Nat → BitVec 6

end Sys2Proof
end

