-- ==== Sys2Proof/Machine/State.lean ====
section
/-! DEFINITION. The state: the block's complete architectural state (10_state.md R20), and the model's own fields for
the host port. Plain data throughout. -/

namespace Sys2Proof.Machine

/-- The command error codes of `S.ERR` (60_exceptions.md R151). Codes 6 to 15 are never written and have no
constructor (entry 13). -/
inductive ErrCode where
  | none
  | badKeylen
  | notConfigured
  | keylenMismatch
  | illegalCmd
  | locked
deriving DecidableEq, Repr

/-- The block's complete architectural state (10_state.md R20), but for the constant `NB`, which is `Config.NB`. -/
structure Block where
  /-- `S.CFG_VALID` (R22). -/
  cfgValid : Bool
  /-- `S.NK` (R23). -/
  nk : BitVec 4
  /-- `S.NR` (R24). -/
  nr : BitVec 4
  /-- `S.FATAL`, the fatal lock (R28). -/
  fatal : Bool
  /-- `S.ERR` (R29). -/
  err : ErrCode
  /-- `S.SCHED_VALID` (R30). -/
  schedValid : Bool
  /-- `KEY[0..7]`, the key latches (R31). -/
  key : Vector Word 8
  /-- `RK[0..59]`, the schedule storage (R32). -/
  rk : Vector Word 60
  /-- `S.MULX_RES` (R33). -/
  mulxRes : Byte
  /-- `W`, the hidden working word of EXPAND (R34). -/
  w : Word
  /-- `word`, the hidden word counter of EXPAND (R34). -/
  word : BitVec 6
deriving DecidableEq, Repr

/-- What arrives at the host port. -/
inductive PortEvent where
  /-- A host transaction is presented (20_memory.md R41, R56). -/
  | txn (t : BusTxn)
  /-- `rst` rises, while `presented`, if any, was presented and not yet acknowledged (70_reset_and_hazards.md R170). -/
  | rstRise (presented : Option BusTxn)
  /-- `rst` falls. -/
  | rstFall
deriving DecidableEq, Repr

/-- How a host transaction ends: OK, with the data of a read, or a bus error with one cause (20_memory.md R47).
A bus error carries no read data (60_exceptions.md R158; entry 6). -/
inductive Response where
  | writeOk
  | readData (v : Reg32)
  | busError (c : BusCause)
deriving DecidableEq, Repr

/-- The machine: the block, and the model's own fields for the host port (entries 3, 7, 9, 10). -/
structure State where
  /-- The architectural state. -/
  block : Block
  /-- What has arrived at the port and is not yet performed, oldest first (entry 7). -/
  pending : List PortEvent
  /-- How the transactions performed so far ended, oldest first (entry 9). -/
  outcomes : List Response
  /-- The level of the input `rst` (entry 10). -/
  rst : Bool
  /-- The counter the free values are drawn with (entry 3). -/
  freeCount : Nat
deriving DecidableEq, Repr

/-- Why the machine stops. -/
inductive Fault where
  /-- Raised by EXPAND where CFG_VALID = 1 and (NK, NR) is no pair of 41_configuration.md R110, a state no run reaches
  (10_state.md R27): `KeyExpansion` is defined for a configured pair only (42_key_expansion.md, before R122). Safe: no
  claim about a schedule can be proved there (entry 12). -/
  | unconfiguredPair
deriving DecidableEq, Repr

/-- Why an instruction has no meaning. -/
inductive Refusal where
  /-- An instruction that has no meaning yet. Raised by no arm of this model. Safe. -/
  | notModelled (mnemonic : String)
deriving DecidableEq, Repr

/-- The block's elements at their reset values (10_state.md R36). `W` and `word` have none: the two arguments. -/
def Block.atReset (w : Word) (word : BitVec 6) : Block :=
  { cfgValid := false, nk := 0, nr := 0, fatal := false, err := .none, schedValid := false,
    key := Vector.replicate 8 Word.zero, rk := Vector.replicate 60 Word.zero, mulxRes := 0,
    w := w, word := word }

/-- The machine right after reset (10_state.md R36, 70_reset_and_hazards.md R171), with nothing presented.
DESIGN CHOICE: zero for the hidden `W` and `word` (entry 2). -/
def State.reset : State :=
  { block := Block.atReset Word.zero 0, pending := [], outcomes := [], rst := false, freeCount := 0 }

/-- What an instruction's meaning answers. -/
abbrev Result := Host.Outcome State Fault Refusal

end Sys2Proof.Machine
end

