-- ==== Sys2Proof/Machine/Operands.lean ====
section
/-! DEFINITION. Operand forms: the packing of Words into bus registers (20_memory.md R53), the bytes of the key, and the
offset a platform address becomes (R52). -/

namespace Sys2Proof.Machine

/-- `pack`: byte 0 of a Word in bits 31..24 (R53). -/
def pack (a : Word) : Reg32 := a.b0 ++ a.b1 ++ a.b2 ++ a.b3

/-- `unpack`: the Word whose byte 0 is bits 31..24 (R53). -/
def unpack (v : Reg32) : Word :=
  ⟨v.extractLsb' 24 8, v.extractLsb' 16 8, v.extractLsb' 8 8, v.extractLsb' 0 8⟩

/-- The bytes of a Word, lowest index first (00_scope.md R11). -/
def wordBytes (a : Word) : List Byte := [a.b0, a.b1, a.b2, a.b3]

/-- The cipher key in the latches as a byte sequence: `K[4i + j] = KEY[i].j` for `i < Nk` (42_key_expansion.md R129,
10_state.md R31). -/
def keyBytes (key : Vector Word 8) (nk : Nat) : List Byte := (key.toList.take nk).flatMap wordBytes

/-- Word `i` of a byte sequence: bytes `4i` to `4i + 3` (42_key_expansion.md R122). -/
def wordOfBytes (bytes : List Byte) (i : Nat) : Word :=
  ⟨bytes.getD (4 * i) 0, bytes.getD (4 * i + 1) 0, bytes.getD (4 * i + 2) 0, bytes.getD (4 * i + 3) 0⟩

/-- The offset that reaches the block: the low 10 bits of a platform address (20_memory.md R52). -/
def windowOffset (platformAddr : Nat) : BitVec 10 := BitVec.ofNat 10 platformAddr

end Sys2Proof.Machine
end

