-- ==== Sys2Proof/Machine/Flags.lean ====
section
/-! DEFINITION. The error codes and the composed register values: STATUS (10_state.md R38), CFG and MULX_RES (R39),
NWORDS (R26). -/

namespace Sys2Proof.Machine

/-- The 4-bit code of an error (60_exceptions.md R151). -/
def errBits : ErrCode → BitVec 4
  | .none => 0
  | .badKeylen => 1
  | .notConfigured => 2
  | .keylenMismatch => 3
  | .illegalCmd => 4
  | .locked => 5

/-- `Nb * (Nr + 1)`, the words of a schedule (00_scope.md R8). -/
def scheduleWords (nr : Nat) : Nat := Config.NB.toNat * (nr + 1)

/-- `NWORDS`: computed from the state, 0 while unconfigured (10_state.md R26). -/
def nwords (b : Block) : Nat := if b.cfgValid then scheduleWords b.nr.toNat else 0

/-- The STATUS register: `{ERR, 0, FATAL, SCHED_VALID, CFG_VALID}`, upper bits zero (10_state.md R38). -/
def statusReg (b : Block) : Reg32 :=
  0#24 ++ errBits b.err ++ 0#1 ++ BitVec.ofBool b.fatal ++ BitVec.ofBool b.schedValid ++ BitVec.ofBool b.cfgValid

/-- The CFG register: NWORDS in 21..16, NR in 11..8, NK in 7..4, NB in 3..0 (10_state.md R39). -/
def cfgReg (b : Block) : Reg32 :=
  0#10 ++ BitVec.ofNat 6 (nwords b) ++ 0#4 ++ b.nr ++ b.nk ++ Config.NB

/-- The MULX_RES register: the result byte in 7..0 (10_state.md R39). -/
def mulxResReg (b : Block) : Reg32 := 0#24 ++ b.mulxRes

end Sys2Proof.Machine
end

