-- ==== Sys2Proof/Machine/Ops.lean ====
section
/-! DEFINITION. The named operations every meaning is written over: how a transaction ends, the two error mechanisms
(60_exceptions.md R150: command errors and bus errors, and no others), the fatal lock, register reads and the reset. -/

namespace Sys2Proof.Machine

/-- The state with the block replaced. -/
def State.setBlock (s : State) (b : Block) : State := { s with block := b }

/-- The state with one more outcome recorded (20_memory.md R47). -/
def State.respond (s : State) (r : Response) : State := { s with outcomes := s.outcomes ++ [r] }

/-- An admitted write has completed with this block (20_memory.md R48, R50). -/
def writeDone (b : Block) (s : State) : Result := .next ((s.setBlock b).respond .writeOk)

/-- An admitted read has completed: data, and no side effect (20_memory.md R49, R51, R55). -/
def readDone (v : Reg32) (s : State) : Result := .next (s.respond (.readData v))

/-- `raise BusError(c)`: the transaction ends with the cause and changes no state of the block (60_exceptions.md R158). The
block goes on with the next transaction (entry 5). -/
def raiseBusError (c : BusCause) (s : State) : Result := .next (s.respond (.busError c))

/-- `fail CODE`: `S.ERR <- CODE` and no other state write (30_encoding.md R74); a command that lists more writes for the
code makes them first (60_exceptions.md R153). -/
def failCommand (e : ErrCode) (b : Block) : Block := { b with err := e }

/-- Every command tests the fatal lock first and fails with `LOCKED` under it (30_encoding.md R74, 60_exceptions.md R155).
The CMD write itself ends OK (20_memory.md R48). -/
def underLock (effect : State → Result) (s : State) : Result :=
  if s.block.fatal then writeDone (failCommand .locked s.block) s else effect s

/-- Word `i` of a schedule, `[0, 0, 0, 0]` outside it. -/
def schedAt (sched : Vector Word 60) (i : Nat) : Word := if h : i < 60 then sched[i] else Word.zero

/-- The schedule with word `i` replaced. -/
def schedSet (sched : Vector Word 60) (i : Nat) (a : Word) : Vector Word 60 :=
  if h : i < 60 then sched.set i a else sched

/-- `rst` rises: every element takes its reset value, whatever it was, and a presented transaction that was not
acknowledged is abandoned (70_reset_and_hazards.md R170). The hidden `W` and `word` have no reset value (10_state.md R36):
free values (entry 3). -/
def raiseReset (s : State) : State :=
  { s with block := Block.atReset (Config.freeW s.freeCount) (Config.freeWord s.freeCount), rst := true,
           freeCount := s.freeCount + 1 }

/-- `rst` falls: the block accepts transactions again. -/
def releaseReset (s : State) : State := { s with rst := false }

end Sys2Proof.Machine
end

