-- ==== Sys2Proof/Machine/HostRead.lean ====
section
/-! DEFINITION. The host's reads: STATUS, CFG, MULX_RES (20_memory.md R49) and the round-key words (R51). -/

namespace Sys2Proof.Machine

/-- RD_STATUS (20_memory.md R49, 10_state.md R38). -/
def execRdStatus (s : State) : Result := readDone (statusReg s.block) s

/-- RD_CFG (20_memory.md R49, 10_state.md R39). -/
def execRdCfg (s : State) : Result := readDone (cfgReg s.block) s

/-- RD_MULX_RES (20_memory.md R49, 10_state.md R39). -/
def execRdMulxRes (s : State) : Result := readDone (mulxResReg s.block) s

/-- RD_RK: a valid schedule's word below NWORDS, else RK_INVALID before RK_RANGE (20_memory.md R51). -/
def execRdRk (w : Fin 60) (s : State) : Result :=
  if s.block.schedValid = false then raiseBusError .rkInvalid s
  else if w.val ≥ nwords s.block then raiseBusError .rkRange s
  else readDone (pack s.block.rk[w.val]) s

end Sys2Proof.Machine
end

