-- ==== Sys2Proof/Machine/KeyConfig.lean ====
section
/-! DEFINITION. The key-length configuration and the CONFIG command (41_configuration.md R110 to R112). -/

namespace Sys2Proof.Machine

/-- The table of supported key lengths: `(Nk, Nr)` (R110). -/
def keyParams (klen : Nat) : Option (BitVec 4 × BitVec 4) :=
  if klen = 128 then some (4, 10)
  else if klen = 192 then some (6, 12)
  else if klen = 256 then some (8, 14)
  else none

/-- `(NK, NR)` is a pair of R110's table. -/
def configuredPair (nk nr : BitVec 4) : Bool :=
  decide ((nk = 4 ∧ nr = 10) ∨ (nk = 6 ∧ nr = 12) ∨ (nk = 8 ∧ nr = 14))

/-- `FatalConfig()`: the fatal lock is entered and the configuration does not survive (R112). -/
def fatalConfig (b : Block) : Block :=
  failCommand .badKeylen { b with fatal := true, cfgValid := false, nk := 0, nr := 0, schedValid := false }

/-- The block after CONFIG (R111, R112). -/
def configBlock (klen : Nat) (b : Block) : Block :=
  match keyParams klen with
  | some (nk, nr) => { b with nk := nk, nr := nr, cfgValid := true, schedValid := false, err := .none }
  | none => fatalConfig b

/-- The effect of an admitted, unlocked CONFIG (R111). -/
def performConfig (klen : Nat) (s : State) : Result := writeDone (configBlock klen s.block) s

/-- CONFIG (R111). -/
def execConfig (klen : Nat) (s : State) : Result := underLock (performConfig klen) s

end Sys2Proof.Machine
end

