-- ==== Sys2Proof/Machine/Multiplier.lean ====
section
/-! DEFINITION. The GF(2^8) field multiplier and the MULX command (40_gf_multiplier.md R100 to R105). -/

namespace Sys2Proof.Machine

/-- One field doubling: shift left, and XOR with 0x1B where the high bit was set (R100). -/
def xtime (b : Byte) : Byte := if b.toNat > 127 then (b <<< 1) ^^^ 0x1B else b <<< 1

/-- `mult_by_x(b, n)`: `xtime` applied `n` times (R101). -/
def multByX (b : Byte) : Nat → Byte
  | 0 => b
  | n + 1 => xtime (multByX b n)

/-- The effect of an admitted, unlocked MULX: MULX_RES and ERR only (R102). -/
def performMulx (b : Byte) (n : Nat) (s : State) : Result :=
  writeDone { s.block with mulxRes := multByX b n, err := .none } s

/-- MULX (R102). -/
def execMulx (b : Byte) (n : Nat) (s : State) : Result := underLock (performMulx b n) s

end Sys2Proof.Machine
end

