-- ==== Sys2Proof/Machine/Expand.lean ====
section
/-! DEFINITION. The key-schedule expansion and the EXPAND command (42_key_expansion.md R120 to R132). The expansion takes
the S-box as an argument; the command uses the parameter `Config.SBOX` (00_scope.md R9). -/

namespace Sys2Proof.Machine

/-- `RotWord`: rotate left by one byte (R120). -/
def rotWord (a : Word) : Word := ⟨a.b1, a.b2, a.b3, a.b0⟩

/-- `SubWord`: the S-box on each of the four bytes (R120). -/
def subWord (sbox : Byte → Byte) (a : Word) : Word := ⟨sbox a.b0, sbox a.b1, sbox a.b2, sbox a.b3⟩

/-- The round constant of modifier `m`, with the short-circuit at 1 (R121). -/
def rcon (m : Nat) : Byte := if m = 1 then 0x01 else multByX 0x01 (m - 1)

/-- The round branch: rotate, substitute, XOR the round constant into byte 0 (R125). -/
def roundBranch (sbox : Byte → Byte) (m : Nat) (a : Word) : Word :=
  let r := subWord sbox (rotWord a)
  { r with b0 := r.b0 ^^^ rcon m }

/-- The branch of an iteration, tested in R124's order: round (R125), substitution (R126), none. -/
def branch (sbox : Byte → Byte) (nk word : Nat) (a : Word) : Word :=
  if word % nk = 0 then roundBranch sbox (word / nk) a
  else if nk > 6 ∧ word % nk = 4 then subWord sbox a
  else a

/-- What the derivation loop carries: the schedule under construction, the working word `W` and the counter `word`
(R123, R124; 10_state.md R34). -/
structure ExpandLoop where
  sched : Vector Word 60
  w : Word
  word : Nat
deriving DecidableEq, Repr

/-- One iteration: the branch, then the final combine (R124, R127). -/
def expandIter (sbox : Byte → Byte) (nk : Nat) (l : ExpandLoop) : ExpandLoop :=
  let a := (branch sbox nk l.word l.w).xor (schedAt l.sched (l.word - nk))
  { sched := schedSet l.sched l.word a, w := a, word := l.word + 1 }

/-- `k` iterations in increasing order of `word`. -/
def expandIters (sbox : Byte → Byte) (nk : Nat) : Nat → ExpandLoop → ExpandLoop
  | 0, l => l
  | k + 1, l => expandIters sbox nk k (expandIter sbox nk l)

/-- The seed words: words `0` to `Nk - 1` are the key's (R122). The others are not read before they are written
(entry 23). -/
def seedSchedule (keySeq : List Byte) (nk : Nat) : Vector Word 60 :=
  Vector.ofFn fun i => if i.val < nk then wordOfBytes keySeq i.val else Word.zero

/-- The loop before its first iteration: `W` is the last seed word, `word = Nk` (R123, R124). -/
def expandStart (keySeq : List Byte) (nk : Nat) : ExpandLoop :=
  let sched := seedSchedule keySeq nk
  { sched := sched, w := schedAt sched (nk - 1), word := nk }

/-- The tail beyond the schedule is `[0, 0, 0, 0]` (R128). -/
def zeroTail (total : Nat) (sched : Vector Word 60) : Vector Word 60 :=
  Vector.ofFn fun i => if i.val < total then sched[i.val] else Word.zero

/-- `KeyExpansion(K, Nk, Nr)` (R128). -/
def keyExpansion (sbox : Byte → Byte) (keySeq : List Byte) (nk nr : Nat) : Vector Word 60 :=
  zeroTail (scheduleWords nr)
    (expandIters sbox nk (scheduleWords nr - nk) (expandStart keySeq nk)).sched

/-- The schedule EXPAND writes: the expansion of the latches `KEY[0 .. NK-1]` (R129). -/
def blockSchedule (sbox : Byte → Byte) (b : Block) : Vector Word 60 :=
  keyExpansion sbox (keyBytes b.key b.nk.toNat) b.nk.toNat b.nr.toNat

/-- The block after a failing EXPAND: the schedule is invalidated and the code written (R129, 60_exceptions.md R153). -/
def failExpand (e : ErrCode) (b : Block) : Block := failCommand e { b with schedValid := false }

/-- The state before its outcome is recorded after a successful EXPAND (R129). The hidden `W` and `word` are left at
free values (10_state.md R34; entry 3). -/
def expandedState (sbox : Byte → Byte) (s : State) : State :=
  { s with
    block :=
      { s.block with
        rk := blockSchedule sbox s.block, schedValid := true, err := .none,
        w := Config.freeW s.freeCount, word := Config.freeWord s.freeCount },
    freeCount := s.freeCount + 1 }

/-- The effect of an admitted, unlocked EXPAND, its checks in R129's order. -/
def performExpand (sbox : Byte → Byte) (kbytes : Nat) (s : State) : Result :=
  if s.block.cfgValid = false then writeDone (failExpand .notConfigured s.block) s
  else if kbytes ≠ 4 * s.block.nk.toNat then writeDone (failExpand .keylenMismatch s.block) s
  else if configuredPair s.block.nk s.block.nr = false then .fault .unconfiguredPair
  else .next ((expandedState sbox s).respond .writeOk)

/-- EXPAND (R129). -/
def execExpand (kbytes : Nat) (s : State) : Result := underLock (performExpand Config.SBOX kbytes) s

end Sys2Proof.Machine
end

