-- ==== Sys2Proof/Machine/HostWrite.lean ====
section
/-! DEFINITION. The host's writes: CMD (20_memory.md R48, 30_encoding.md R74) and the key latches (20_memory.md R50). -/

namespace Sys2Proof.Machine

/-- `Command(v)` below the lock: decode, then the command's own rule (30_encoding.md R74). An illegal word has no other
effect than its code (R76). -/
def performWord (v : Reg32) (s : State) : Result :=
  match decodeCommand v with
  | .error _ => writeDone (failCommand .illegalCmd s.block) s
  | .ok (.config klen) => performConfig klen s
  | .ok (.expand kbytes) => performExpand Config.SBOX kbytes s
  | .ok (.mulx b n) => performMulx b n s

/-- WR_CMD: one command, performed whole before the write completes (20_memory.md R48). -/
def execWrCmd (v : Reg32) (s : State) : Result := underLock (performWord v) s

/-- WR_KEY: `KEY[i] <- unpack(v)` and no other change, in every state (20_memory.md R50). -/
def execWrKey (i : Fin 8) (v : Reg32) (s : State) : Result :=
  writeDone { s.block with key := s.block.key.set i.val (unpack v) } s

end Sys2Proof.Machine
end

