-- ==== Sys2Proof/Machine/Dispatch.lean ====
section
/-! DEFINITION. The meaning of each instruction, one arm per constructor. -/

namespace Sys2Proof.Machine

def exec (i : Instr) (s : State) : Host.Outcome State Fault Refusal :=
  match i with
  | .config klen => Sys2Proof.Machine.execConfig klen s
  | .expand kbytes => Sys2Proof.Machine.execExpand kbytes s
  | .mulx b n => Sys2Proof.Machine.execMulx b n s
  | .wrCmd v => Sys2Proof.Machine.execWrCmd v s
  | .wrKey k v => Sys2Proof.Machine.execWrKey k v s
  | .rdStatus => Sys2Proof.Machine.execRdStatus s
  | .rdCfg => Sys2Proof.Machine.execRdCfg s
  | .rdMulxRes => Sys2Proof.Machine.execRdMulxRes s
  | .rdRk w => Sys2Proof.Machine.execRdRk w s

end Sys2Proof.Machine
end

