-- ==== Sys2Proof/Machine/Port.lean ====
section
/-! DEFINITION. The host port: taking the oldest event of the queue (20_memory.md R56; 70_reset_and_hazards.md R170). -/

namespace Sys2Proof.Machine

/-- What the port makes of its oldest event: nothing more to do, or an instruction to run. -/
inductive Fetched where
  | done (s : State)
  | run (i : Instr) (s : State)
  | busError (c : BusCause) (s : State)
deriving DecidableEq, Repr

/-- A transaction at the port: while `rst` is high it is not accepted, raises no acknowledgement and has no effect
(70_reset_and_hazards.md R170); else it is decoded (30_encoding.md R78). -/
def acceptTxn (t : BusTxn) (s : State) : Fetched :=
  if s.rst then .done s
  else
    match decodeTxn t with
    | .ok i => .run i s
    | .error c => .busError c s

/-- One event at the port. -/
def portEvent (e : PortEvent) (s : State) : Fetched :=
  match e with
  | .txn t => acceptTxn t s
  | .rstRise _ => .done (raiseReset s)
  | .rstFall => .done (releaseReset s)

/-- Take the oldest event; with none, every element keeps its value (60_exceptions.md R167; entry 7). -/
def fetch (s : State) : Fetched :=
  match s.pending with
  | [] => .done s
  | e :: rest => portEvent e { s with pending := rest }

/-- Present a transaction as the port's oldest event, with `rst` low. -/
def presentTxn (t : BusTxn) (s : State) : State := { s with pending := .txn t :: s.pending, rst := false }

/-- Present the pattern of a word of the opcode table; a word that is no pattern is cut to the pattern's width. -/
def presentTableWord (nbits w : Nat) (s : State) : State :=
  if nbits ≤ 16 then presentTxn (txnOfCode (.hostRead (BitVec.ofNat 13 w))) s
  else if nbits ≤ 32 then presentTxn (txnOfCode (.command (BitVec.ofNat 32 w))) s
  else presentTxn (txnOfCode (.hostWrite (BitVec.ofNat 45 w))) s

end Sys2Proof.Machine
end

