-- ==== Sys2Proof/Machine/Step.lean ====
section
/-! DEFINITION. One step: the oldest event of the port, whole (00_scope.md R15, 70_reset_and_hazards.md R178). -/

namespace Sys2Proof.Machine

/-- One step of the machine. -/
def step (s : State) : Host.Outcome State Fault Refusal :=
  match fetch s with
  | .done s' => .next s'
  | .run i s' => exec i s'
  | .busError c s' => raiseBusError c s'

/-- The state with the instruction of an opcode-table word presented at the port, so that the next step runs it
(entry 8). -/
def State.withFetchWord (s : State) (nbits w : Nat) : State := presentTableWord nbits w s

end Sys2Proof.Machine
end

