-- ==== Sys2Proof/Machine/HostProgram.lean ====
section
/-! DEFINITION. Host programs as abstract syntax: one transaction per line (30_encoding.md R79), the pseudo-instructions
with their exact expansions (R80), and placing a program at the port (70_reset_and_hazards.md R179). Entry 24. -/

namespace Sys2Proof.Machine

/-- A register operand: a name of the address map, or a raw offset written `@0x...` (R79). -/
inductive HostReg where
  | named (r : Reg)
  | raw (offset : BitVec 10)
deriving DecidableEq, Repr

/-- A line of a host program (R79). -/
inductive HostLine where
  | wr (r : HostReg) (v : Reg32)
  | rd (r : HostReg)
deriving DecidableEq, Repr

/-- The pseudo-instructions (R80). -/
inductive Pseudo where
  | config (bits : Nat)
  | expand (kbytes : Nat)
  | mulx (b n : Nat)
  | loadkey (ks : List Reg32)
deriving DecidableEq, Repr

/-- `offset(<reg>)` (R79). -/
def hostOffset : HostReg → BitVec 10
  | .named r => r.offset
  | .raw offset => offset

/-- The transaction of a line: always 4 bytes (R79). -/
def lineTxn : HostLine → BusTxn
  | .wr r v => { we := true, size := 2, addr := hostOffset r, wdata := v }
  | .rd r => { we := false, size := 2, addr := hostOffset r, wdata := 0 }

/-- The line that writes a command word. -/
def cmdLine (v : Reg32) : HostLine := .wr (.named .cmd) v

/-- `wr KEYi, <ki>` in order from latch `i`; none past KEY7 (R80: `m` at most 7). -/
def keyLines (i : Nat) : List Reg32 → Option (List HostLine)
  | [] => some []
  | v :: vs =>
    if h : i < 8 then (keyLines (i + 1) vs).map (HostLine.wr (.named (.key ⟨i, h⟩)) v :: ·) else none

/-- The expansion of a pseudo-instruction; none for a value out of range, which is never truncated (R80). -/
def pseudoLines : Pseudo → Option (List HostLine)
  | .config bits =>
    if bits < 65536 then some [cmdLine ((BitVec.ofNat 32 bits <<< 16) ||| 0x1)] else none
  | .expand kbytes =>
    if kbytes < 256 then some [cmdLine ((BitVec.ofNat 32 kbytes <<< 8) ||| 0x2)] else none
  | .mulx b n =>
    if b < 256 ∧ n < 256 then
      some [cmdLine ((BitVec.ofNat 32 n <<< 16) ||| (BitVec.ofNat 32 b <<< 8) ||| 0x3)]
    else none
  | .loadkey ks => if ks = [] then none else keyLines 0 ks

/-- The state with a program's transactions presented after everything already at the port (R179). -/
def loadProgram (lines : List HostLine) (s : State) : State :=
  { s with pending := s.pending ++ lines.map fun l => .txn (lineTxn l) }

end Sys2Proof.Machine
end

