-- ==== Sys2Proof/Safety.lean ====
section
/-! DEFINITION. What claims call a good state and a safe outcome: the invariants of 10_state.md R27 and R35, and an
instruction that completes (70_reset_and_hazards.md R178). -/

namespace Sys2Proof.Machine

/-- The configuration invariant (10_state.md R27). -/
def ConfigInv (b : Block) : Prop :=
  (b.cfgValid = true ∧ ((b.nk = 4 ∧ b.nr = 10) ∨ (b.nk = 6 ∧ b.nr = 12) ∨ (b.nk = 8 ∧ b.nr = 14))) ∨
    (b.cfgValid = false ∧ b.nk = 0 ∧ b.nr = 0)

/-- The lock invariant (10_state.md R35, first point). -/
def LockInv (b : Block) : Prop := b.fatal = true → b.cfgValid = false ∧ b.schedValid = false

/-- The tail invariant (10_state.md R35, second point). -/
def TailInv (b : Block) : Prop :=
  b.schedValid = true → b.cfgValid = true ∧ ∀ w : Fin 60, nwords b ≤ w.val → b.rk[w.val] = Word.zero

/-- The schedule invariant (10_state.md R35, third point): what RK holds is the expansion of some key under the
current configuration. -/
def ScheduleInv (b : Block) : Prop :=
  b.schedValid = true →
    ∃ key : Vector Word 8, ∀ w : Fin 60, w.val < nwords b →
      b.rk[w.val] = (keyExpansion Config.SBOX (keyBytes key b.nk.toNat) b.nk.toNat b.nr.toNat)[w.val]

/-- Everything 10_state.md R27 and R35 say of a reachable block. -/
def BlockInv (b : Block) : Prop := ConfigInv b ∧ LockInv b ∧ TailInv b ∧ ScheduleInv b

/-- The machine goes on: neither a fault nor a refusal. -/
def Completes (r : Result) : Prop := ∃ t, r = .next t

/-- Two states that differ at most in the key latches. -/
def SameButKeys (s u : State) : Prop := u = { s with block := { s.block with key := u.block.key } }

/-- Two states that differ at most in the hidden elements `W` and `word` (10_state.md R34). -/
def SameButHidden (s u : State) : Prop :=
  u = { s with block := { s.block with w := u.block.w, word := u.block.word } }

/-- The oldest event at the port is a CMD write that carries an EXPAND. -/
def PresentsExpand (s : State) : Prop :=
  ∃ v rest kbytes, s.pending = .txn (cmdWriteTxn v) :: rest ∧ decodeCommand v = .ok (.expand kbytes)

end Sys2Proof.Machine
end

