-- ==== Sys2Proof/Certificates/Slice0/Obligations.lean ====
section
/-! DEFINITION. The statements for the provers, from the numbered rules of spec/. A next state is written out whole, so
that each statement of a result is its frame as well: whatever is not named is unchanged. -/

open Sys2Proof Sys2Proof.Machine

/-! ### Encoding (30_encoding.md, 20_memory.md) -/

/-- Words written out from the formats of R72 and the patterns of R78 decode to the instructions they stand for. -/
def Obligations.SampleWordsDecode : Prop :=
  decode (.command 0b00000000100000000000000000000001) = .ok (.config 128) ∧
  decode (.command 0b00000000000000000010000000000010) = .ok (.expand 32) ∧
  decode (.command 0b00000000000000011000000000000011) = .ok (.mulx 0x80 1) ∧
  decode (.hostWrite 0b110000000000000000000110000000000000000000001) = .ok (.wrCmd 0x00C00001) ∧
  decode (.hostWrite 0b110000011110000101011011111100001010100010110) = .ok (.wrKey 7 0x2B7E1516) ∧
  decode (.hostRead 0b0100000000100) = .ok .rdStatus ∧
  decode (.hostRead 0b0100000001000) = .ok .rdCfg ∧
  decode (.hostRead 0b0100000001100) = .ok .rdMulxRes ∧
  decode (.hostRead 0b0100111101100) = .ok (.rdRk 59)

/-- Decode and encode agree: every well-formed instruction has a pattern, and it decodes to the instruction, with every
operand at every value the encoding admits (R72, R73, R78). -/
def Obligations.EncodedInstructionsDecodeBack : Prop :=
  ∀ i : Instr, i.wellFormed = true → ∃ c, encode i = some c ∧ decode c = .ok i

/-- The other direction: a pattern that decodes is the pattern of what it decodes to, so each instruction has one
pattern and no bit of it is ignored (R70, R76, R78). -/
def Obligations.DecodedPatternsEncodeBack : Prop :=
  ∀ (c : Code) (i : Instr), decode c = .ok i → i.wellFormed = true ∧ encode i = some c

/-- The opcode map of R75: a word selects a command exactly when `(v AND mask) = match`. -/
def Obligations.CommandSelectedByMaskAndMatch : Prop :=
  ∀ v : Reg32,
    ((∃ klen, decodeCommand v = .ok (.config klen)) ↔ v &&& 0x0000FFFF = 0x00000001) ∧
    ((∃ kbytes, decodeCommand v = .ok (.expand kbytes)) ↔ v &&& 0xFFFF00FF = 0x00000002) ∧
    ((∃ b n, decodeCommand v = .ok (.mulx b n)) ↔ v &&& 0xFF0000FF = 0x00000003)

/-- Operands are plain unsigned fields, taken as they are (R73). -/
def Obligations.CommandOperandsArePlainFields : Prop :=
  ∀ v : Reg32,
    (∀ klen, decodeCommand v = .ok (.config klen) → klen = v.toNat / 65536) ∧
    (∀ kbytes, decodeCommand v = .ok (.expand kbytes) → kbytes = v.toNat / 256 % 256) ∧
    (∀ b n, decodeCommand v = .ok (.mulx b n) → b.toNat = v.toNat / 256 % 256 ∧ n = v.toNat / 65536 % 256)

/-- The admitted host transactions are those of the six rows, with the word index of RD_RK below 60 (R78, 20_memory.md
R44): a tuple performs each of them exactly when it has that row's form, and none is a bare command. -/
def Obligations.AdmittedTransactionForms : Prop :=
  ∀ t : BusTxn,
    (∀ v, decodeTxn t = .ok (.wrCmd v) ↔ t.we = true ∧ t.size = 2 ∧ t.addr = 0x000 ∧ t.wdata = v) ∧
    (∀ (k : Fin 8) (v : Reg32), decodeTxn t = .ok (.wrKey k v) ↔
      t.we = true ∧ t.size = 2 ∧ t.addr.toNat = 0x020 + 4 * k.val ∧ t.wdata = v) ∧
    (decodeTxn t = .ok .rdStatus ↔ t.we = false ∧ t.size = 2 ∧ t.addr = 0x004) ∧
    (decodeTxn t = .ok .rdCfg ↔ t.we = false ∧ t.size = 2 ∧ t.addr = 0x008) ∧
    (decodeTxn t = .ok .rdMulxRes ↔ t.we = false ∧ t.size = 2 ∧ t.addr = 0x00C) ∧
    (∀ w : Fin 60, decodeTxn t = .ok (.rdRk w) ↔
      t.we = false ∧ t.size = 2 ∧ t.addr.toNat = 0x100 + 4 * w.val) ∧
    (∀ c : Command, decodeTxn t ≠ .ok c.toInstr)

/-- A pseudo-instruction's expansion writes the word of its command, for the operands in range, and is refused for the
others; `loadkey` writes KEY0 to KEYm in order, `m` at most 7 (R80). -/
def Obligations.PseudoInstructionExpansions : Prop :=
  (∀ bits, pseudoLines (.config bits) = (encodeCommand (.config bits)).map fun v => [cmdLine v]) ∧
  (∀ kbytes, pseudoLines (.expand kbytes) = (encodeCommand (.expand kbytes)).map fun v => [cmdLine v]) ∧
  (∀ (b : Byte) (n : Nat),
    pseudoLines (.mulx b.toNat n) = (encodeCommand (.mulx b n)).map fun v => [cmdLine v]) ∧
  (∀ b n, 256 ≤ b → pseudoLines (.mulx b n) = none) ∧
  (∀ ks : List Reg32, (ks = [] ∨ 8 < ks.length) → pseudoLines (.loadkey ks) = none) ∧
  (∀ ks : List Reg32, ks ≠ [] → ks.length ≤ 8 →
    ∃ lines, pseudoLines (.loadkey ks) = some lines ∧ lines.length = ks.length ∧
      ∀ (k : Fin 8) (v : Reg32), ks[k.val]? = some v → lines[k.val]? = some (.wr (.named (.key k)) v))

/-! ### One step -/

/-- A step performs the oldest transaction at the port: it is `exec` of the instruction the transaction decodes to, on
the state without that event. -/
def Obligations.StepRunsDecodedTransaction : Prop :=
  ∀ (s : State) (t : BusTxn) (rest : List PortEvent) (i : Instr),
    s.pending = .txn t :: rest → s.rst = false → decodeTxn t = .ok i →
      step s = exec i { s with pending := rest }

/-- A step on a CMD write is `exec` of the command its word decodes to (20_memory.md R48, 30_encoding.md R74). -/
def Obligations.StepRunsCarriedCommand : Prop :=
  ∀ (s : State) (v : Reg32) (rest : List PortEvent) (c : Command),
    s.pending = .txn (cmdWriteTxn v) :: rest → s.rst = false → decodeCommand v = .ok c →
      step s = exec c.toInstr { s with pending := rest }

/-- An instruction of the opcode table, presented at the port, is what the next step runs. -/
def Obligations.PresentedWordRunsNext : Prop :=
  ∀ (s : State) (nbits w : Nat) (i : Instr),
    decodeTableWord nbits w = some i → step (s.withFetchWord nbits w) = exec i { s with rst := false }

/-- With nothing at the port every element keeps its value (60_exceptions.md R167). -/
def Obligations.IdleStepKeepsState : Prop :=
  ∀ s : State, s.pending = [] → step s = .next s

/-- Every step completes in a state of the configuration invariant: no command can hang (70_reset_and_hazards.md R178). -/
def Obligations.EveryStepCompletes : Prop :=
  ∀ s : State, ConfigInv s.block → Completes (step s)

/-- An accepted transaction ends in exactly one outcome and takes exactly its own event: OK for a write, data for a read,
or a bus error (20_memory.md R47). -/
def Obligations.EachTransactionEndsOnce : Prop :=
  ∀ (s : State) (t : BusTxn) (rest : List PortEvent),
    ConfigInv s.block → s.pending = .txn t :: rest → s.rst = false →
      ∃ u r, step s = .next u ∧ u.outcomes = s.outcomes ++ [r] ∧ u.pending = rest ∧
        ((t.we = true ∧ r = .writeOk) ∨ (t.we = false ∧ ∃ v, r = .readData v) ∨
          (∃ c, r = .busError c ∧ u.block = s.block))

/-- The only stop of the model: EXPAND, unlocked, with the byte count it asks for, in a state whose pair (NK, NR) no run
produces (the model's choice, entry 12). -/
def Obligations.OnlyUnconfiguredPairStops : Prop :=
  ∀ (s : State) (r : Fault), step s = .fault r ↔
    r = .unconfiguredPair ∧ s.rst = false ∧ s.block.fatal = false ∧ s.block.cfgValid = true ∧
      configuredPair s.block.nk s.block.nr = false ∧
      ∃ v rest kbytes, s.pending = .txn (cmdWriteTxn v) :: rest ∧
        decodeCommand v = .ok (.expand kbytes) ∧ kbytes = 4 * s.block.nk.toNat

/-! ### Bus errors (60_exceptions.md R157, R158) -/

/-- The six causes, each reported when its condition holds and no earlier one does, with no change to the block. -/
def Obligations.BusErrorCauseAndPriority : Prop :=
  ∀ (s : State) (t : BusTxn) (rest : List PortEvent), s.pending = .txn t :: rest → s.rst = false →
    (t.size ≠ 2 →
      step s = .next { s with pending := rest, outcomes := s.outcomes ++ [.busError .size] }) ∧
    (t.size = 2 → t.addr.toNat % 4 ≠ 0 →
      step s = .next { s with pending := rest, outcomes := s.outcomes ++ [.busError .align] }) ∧
    (t.size = 2 → t.addr.toNat % 4 = 0 →
      ¬(t.addr.toNat < 0x010 ∨ (0x020 ≤ t.addr.toNat ∧ t.addr.toNat ≤ 0x03C) ∨
        (0x100 ≤ t.addr.toNat ∧ t.addr.toNat ≤ 0x1EC)) →
      step s = .next { s with pending := rest, outcomes := s.outcomes ++ [.busError .unmapped] }) ∧
    (t.size = 2 → t.addr.toNat % 4 = 0 →
      ((t.we = true ∧ ((0x004 ≤ t.addr.toNat ∧ t.addr.toNat ≤ 0x00C) ∨
          (0x100 ≤ t.addr.toNat ∧ t.addr.toNat ≤ 0x1EC))) ∨
        (t.we = false ∧ (t.addr.toNat = 0x000 ∨ (0x020 ≤ t.addr.toNat ∧ t.addr.toNat ≤ 0x03C)))) →
      step s = .next { s with pending := rest, outcomes := s.outcomes ++ [.busError .direction] }) ∧
    (∀ w : Fin 60, t.size = 2 → t.we = false → t.addr.toNat = 0x100 + 4 * w.val →
      (s.block.schedValid = false →
        step s = .next { s with pending := rest, outcomes := s.outcomes ++ [.busError .rkInvalid] }) ∧
      (s.block.schedValid = true → nwords s.block ≤ w.val →
        step s = .next { s with pending := rest, outcomes := s.outcomes ++ [.busError .rkRange] }))

/-- A transaction that ends in a bus error changes no state (R158). -/
def Obligations.BusErrorChangesNoState : Prop :=
  ∀ (s u : State) (c : BusCause), step s = .next u → u.outcomes = s.outcomes ++ [.busError c] →
    u.block = s.block ∧ u.rst = s.rst ∧ u.freeCount = s.freeCount ∧ u.pending = s.pending.tail

/-! ### Reads (20_memory.md R49, R51; 10_state.md R38, R39) -/

/-- RD_STATUS completes in every state, changes nothing of the block and reads R38's layout. -/
def Obligations.StatusReadLayout : Prop :=
  ∀ s : State, ∃ v : Reg32,
    exec .rdStatus s = .next { s with outcomes := s.outcomes ++ [.readData v] } ∧
    v.getLsbD 0 = s.block.cfgValid ∧ v.getLsbD 1 = s.block.schedValid ∧ v.getLsbD 2 = s.block.fatal ∧
    v.getLsbD 3 = false ∧ v.extractLsb' 4 4 = errBits s.block.err ∧ v.extractLsb' 8 24 = 0

/-- The codes of `S.ERR` (60_exceptions.md R151). -/
def Obligations.ErrorCodes : Prop :=
  errBits .none = 0 ∧ errBits .badKeylen = 1 ∧ errBits .notConfigured = 2 ∧ errBits .keylenMismatch = 3 ∧
    errBits .illegalCmd = 4 ∧ errBits .locked = 5

/-- RD_CFG completes in every state, changes nothing of the block and reads R39's layout: NB = 4 always, NK, NR, and NWORDS
as R26 computes it. -/
def Obligations.CfgReadLayout : Prop :=
  ∀ s : State, ∃ v : Reg32,
    exec .rdCfg s = .next { s with outcomes := s.outcomes ++ [.readData v] } ∧
    v.extractLsb' 0 4 = 4 ∧ v.extractLsb' 4 4 = s.block.nk ∧ v.extractLsb' 8 4 = s.block.nr ∧
    v.extractLsb' 12 4 = 0 ∧ v.extractLsb' 22 10 = 0 ∧
    (s.block.cfgValid = false → v.extractLsb' 16 6 = 0) ∧
    (s.block.cfgValid = true → s.block.nr ≠ 15 →
      (v.extractLsb' 16 6).toNat = 4 * (s.block.nr.toNat + 1))

/-- RD_MULX_RES completes in every state, changes nothing of the block and reads the result byte, upper bits zero (R39, R49). -/
def Obligations.MulxResReadLayout : Prop :=
  ∀ s : State, exec .rdMulxRes s =
    .next { s with outcomes := s.outcomes ++ [.readData (s.block.mulxRes.zeroExtend 32)] }

/-- CFG after each CONFIG (10_state.md R39), from every unlocked state. -/
def Obligations.CfgValueAfterConfig : Prop :=
  ∀ s : State, s.block.fatal = false →
    ∀ p ∈ [(128, (0x002C0A44 : Reg32)), (192, 0x00340C64), (256, 0x003C0E84)],
      ∃ t, exec (.config p.1) s = .next t ∧
        exec .rdCfg t = .next { t with outcomes := t.outcomes ++ [.readData p.2] }

/-- RD_RK: RK_INVALID without a valid schedule, RK_RANGE beyond NWORDS, else the packed word; no side effect (R51). -/
def Obligations.RoundKeyRead : Prop :=
  ∀ (s : State) (w : Fin 60),
    (s.block.schedValid = false →
      exec (.rdRk w) s = .next { s with outcomes := s.outcomes ++ [.busError .rkInvalid] }) ∧
    (s.block.schedValid = true → nwords s.block ≤ w.val →
      exec (.rdRk w) s = .next { s with outcomes := s.outcomes ++ [.busError .rkRange] }) ∧
    (s.block.schedValid = true → w.val < nwords s.block →
      exec (.rdRk w) s = .next { s with outcomes := s.outcomes ++ [.readData (pack s.block.rk[w.val])] })

/-- Byte 0 of a Word is in bits 31..24 of its register, and packing loses nothing (20_memory.md R53). -/
def Obligations.PackingIsBigEndian : Prop :=
  (∀ a : Word, (pack a).extractLsb' 24 8 = a.b0 ∧ (pack a).extractLsb' 16 8 = a.b1 ∧
    (pack a).extractLsb' 8 8 = a.b2 ∧ (pack a).extractLsb' 0 8 = a.b3 ∧ unpack (pack a) = a) ∧
  (∀ v : Reg32, pack (unpack v) = v)

/-! ### Reset (70_reset_and_hazards.md R170, R171; 10_state.md R36) -/

/-- Every element of R36's table has its reset value, in `State.reset` and after a rise of `rst` in every state, whatever
was presented. `W` and `word` have none, and `NB` is a constant. -/
def Obligations.ResetValues : Prop :=
  Config.NB = 4 ∧
  (∀ (s : State) (p : Option BusTxn) (rest : List PortEvent), s.pending = .rstRise p :: rest →
    ∃ t, step s = .next t ∧ t.block = Block.atReset t.block.w t.block.word ∧ t.rst = true ∧
      t.outcomes = s.outcomes ∧ t.pending = rest) ∧
  State.reset.block = Block.atReset State.reset.block.w State.reset.block.word ∧
  (∀ (a : Word) (c : BitVec 6),
    (Block.atReset a c).cfgValid = false ∧ (Block.atReset a c).nk = 0 ∧ (Block.atReset a c).nr = 0 ∧
    (Block.atReset a c).fatal = false ∧ (Block.atReset a c).err = .none ∧
    (Block.atReset a c).schedValid = false ∧ (Block.atReset a c).mulxRes = 0 ∧
    (∀ i : Fin 8, (Block.atReset a c).key[i.val] = ⟨0, 0, 0, 0⟩) ∧
    (∀ w : Fin 60, (Block.atReset a c).rk[w.val] = ⟨0, 0, 0, 0⟩))

/-- What the host reads after reset and before any transaction, and the key latches it cannot read (R171). -/
def Obligations.ReadsAfterReset : Prop :=
  exec .rdStatus State.reset = .next { State.reset with outcomes := [.readData 0x00000000] } ∧
  exec .rdCfg State.reset = .next { State.reset with outcomes := [.readData 0x00000004] } ∧
  exec .rdMulxRes State.reset = .next { State.reset with outcomes := [.readData 0x00000000] } ∧
  State.reset.block.fatal = false ∧ State.reset.block.schedValid = false ∧
  (∀ i : Fin 8, State.reset.block.key[i.val] = ⟨0, 0, 0, 0⟩) ∧
  ∀ w : Fin 60, exec (.rdRk w) State.reset = .next { State.reset with outcomes := [.busError .rkInvalid] }

/-- While `rst` is high no transaction is accepted: none is acknowledged and nothing of the block changes (R170). When it
falls, the block is as it was. The consumed event is the model's choice (entry 10). -/
def Obligations.NothingAcceptedUnderReset : Prop :=
  (∀ (s : State) (t : BusTxn) (rest : List PortEvent), s.pending = .txn t :: rest → s.rst = true →
    step s = .next { s with pending := rest }) ∧
  (∀ (s : State) (rest : List PortEvent), s.pending = .rstFall :: rest →
    step s = .next { s with pending := rest, rst := false })

/-! ### CONFIG and the fatal lock (41_configuration.md, 60_exceptions.md section 2) -/

/-- CONFIG from an unlocked state, for every key length: the table's pair, or the fatal lock (R110, R111, R112). -/
def Obligations.ConfigSetsKeyLength : Prop :=
  ∀ (klen : Nat) (s : State), s.block.fatal = false →
    (∀ p ∈ [(128, ((4 : BitVec 4), (10 : BitVec 4))), (192, (6, 12)), (256, (8, 14))], klen = p.1 →
      exec (.config klen) s = .next { s with
        block := { s.block with
          nk := p.2.1, nr := p.2.2, cfgValid := true, schedValid := false, err := .none },
        outcomes := s.outcomes ++ [.writeOk] }) ∧
    (klen ≠ 128 → klen ≠ 192 → klen ≠ 256 →
      exec (.config klen) s = .next { s with
        block := { s.block with
          fatal := true, cfgValid := false, nk := 0, nr := 0, schedValid := false, err := .badKeylen },
        outcomes := s.outcomes ++ [.writeOk] })

/-- After a bad key length every command fails with `LOCKED` and changes nothing else, however many follow, until reset
(R112, R154): a run of CMD writes from the locked state only records outcomes. -/
def Obligations.BadKeyLengthLocksUntilReset : Prop :=
  ∀ (klen : Nat) (s t : State) (words : List Reg32),
    s.block.fatal = false → s.rst = false → klen ≠ 128 → klen ≠ 192 → klen ≠ 256 →
    exec (.config klen) s = .next t → t.pending = words.map (fun v => .txn (cmdWriteTxn v)) → words ≠ [] →
      Host.Core.run core words.length t = .next { t with
        block := { t.block with err := .locked }, pending := [],
        outcomes := t.outcomes ++ words.map fun _ => .writeOk }

/-- What the block does under the lock (R155): commands fail with `LOCKED`, the reads and key writes go on, RK cannot be
read, and only reset leaves it. The lock invariant of 10_state.md R35 rules out a valid schedule. -/
def Obligations.BehaviourUnderTheLock : Prop :=
  ∀ s : State, s.block.fatal = true → LockInv s.block →
    (∀ v : Reg32, exec (.wrCmd v) s = .next { s with
      block := { s.block with err := .locked }, outcomes := s.outcomes ++ [.writeOk] }) ∧
    (∀ c : Command, exec c.toInstr s = .next { s with
      block := { s.block with err := .locked }, outcomes := s.outcomes ++ [.writeOk] }) ∧
    exec .rdStatus s = .next { s with outcomes := s.outcomes ++ [.readData (statusReg s.block)] } ∧
    exec .rdCfg s = .next { s with outcomes := s.outcomes ++ [.readData (cfgReg s.block)] } ∧
    exec .rdMulxRes s = .next { s with outcomes := s.outcomes ++ [.readData (mulxResReg s.block)] } ∧
    (∀ (k : Fin 8) (v : Reg32), exec (.wrKey k v) s = .next { s with
      block := { s.block with key := s.block.key.set k.val (unpack v) },
      outcomes := s.outcomes ++ [.writeOk] }) ∧
    (∀ w : Fin 60, exec (.rdRk w) s = .next { s with outcomes := s.outcomes ++ [.busError .rkInvalid] }) ∧
    (∀ t, step s = .next t → t.block.fatal = false → ∃ p rest, s.pending = .rstRise p :: rest)

/-- `S.FATAL` is set only by a CONFIG with an unsupported key length and cleared only by reset (10_state.md R28). -/
def Obligations.FatalSetAndClearedOnlyBy : Prop :=
  ∀ s t : State, step s = .next t →
    (s.block.fatal = false → t.block.fatal = true →
      ∃ v rest klen, s.pending = .txn (cmdWriteTxn v) :: rest ∧ s.rst = false ∧
        decodeCommand v = .ok (.config klen) ∧ klen ≠ 128 ∧ klen ≠ 192 ∧ klen ≠ 256) ∧
    (s.block.fatal = true → t.block.fatal = false → ∃ p rest, s.pending = .rstRise p :: rest)

/-! ### Command errors (60_exceptions.md R151 to R153; 30_encoding.md R74, R76) -/

/-- WR_CMD: the lock first, then decoding, then the command's own rule (30_encoding.md R74, 20_memory.md R48). -/
def Obligations.CmdWritePerformsItsCommand : Prop :=
  ∀ (v : Reg32) (s : State),
    (s.block.fatal = true → exec (.wrCmd v) s = .next { s with
      block := { s.block with err := .locked }, outcomes := s.outcomes ++ [.writeOk] }) ∧
    (∀ r, s.block.fatal = false → decodeCommand v = .error r → exec (.wrCmd v) s = .next { s with
      block := { s.block with err := .illegalCmd }, outcomes := s.outcomes ++ [.writeOk] }) ∧
    (∀ c, decodeCommand v = .ok c → exec (.wrCmd v) s = exec c.toInstr s) ∧
    (ConfigInv s.block → ∃ t, exec (.wrCmd v) s = .next t ∧ t.outcomes = s.outcomes ++ [.writeOk])

/-- The illegal words are those with `OP` 0x0 or 0x4 to 0xF and those with a reserved bit set, and they fail with
`ILLEGAL_CMD` and no other effect (R76). -/
def Obligations.IllegalWordsHaveNoOtherEffect : Prop :=
  ∀ (v : Reg32) (s : State), s.block.fatal = false →
    (v.toNat % 16 = 0 ∨ 4 ≤ v.toNat % 16 ∨
      (v.toNat % 16 = 1 ∧ v.toNat / 16 % 4096 ≠ 0) ∨
      (v.toNat % 16 = 2 ∧ (v.toNat / 65536 ≠ 0 ∨ v.toNat / 16 % 16 ≠ 0)) ∨
      (v.toNat % 16 = 3 ∧ (v.toNat / 16777216 ≠ 0 ∨ v.toNat / 16 % 16 ≠ 0))) →
      exec (.wrCmd v) s = .next { s with
        block := { s.block with err := .illegalCmd }, outcomes := s.outcomes ++ [.writeOk] }

/-- The code every transaction leaves in `S.ERR`: only an admitted CMD write changes it, to the first error that applies
in R152's order, or NONE (10_state.md R29, 60_exceptions.md R151, R152). -/
def Obligations.ErrAfterEachTransaction : Prop :=
  ∀ (s t : State) (q : BusTxn) (rest : List PortEvent),
    s.pending = .txn q :: rest → s.rst = false → step s = .next t →
      ((∀ v, decodeTxn q ≠ .ok (.wrCmd v)) → t.block.err = s.block.err) ∧
      (∀ v, decodeTxn q = .ok (.wrCmd v) →
        (s.block.fatal = true → t.block.err = .locked) ∧
        (s.block.fatal = false →
          (∀ r, decodeCommand v = .error r → t.block.err = .illegalCmd) ∧
          (∀ klen, decodeCommand v = .ok (.config klen) →
            t.block.err = if klen = 128 ∨ klen = 192 ∨ klen = 256 then .none else .badKeylen) ∧
          (∀ kbytes, decodeCommand v = .ok (.expand kbytes) →
            t.block.err = if s.block.cfgValid = false then .notConfigured
              else if kbytes = 4 * s.block.nk.toNat then .none else .keylenMismatch) ∧
          (∀ b n, decodeCommand v = .ok (.mulx b n) → t.block.err = .none)))

/-- The state each failure writes, and nothing else (R153). -/
def Obligations.FailureWritesOnlyItsList : Prop :=
  ∀ (v : Reg32) (s t : State), exec (.wrCmd v) s = .next t →
    ((t.block.err = .locked ∨ t.block.err = .illegalCmd) →
      t.block = { s.block with err := t.block.err }) ∧
    (t.block.err = .badKeylen →
      t.block = { s.block with
        err := .badKeylen, fatal := true, cfgValid := false, nk := 0, nr := 0, schedValid := false }) ∧
    ((t.block.err = .notConfigured ∨ t.block.err = .keylenMismatch) →
      t.block = { s.block with err := t.block.err, schedValid := false })

/-! ### The one writer of each element (10_state.md R22 to R33) -/

/-- `SCHED_VALID` after every transaction (10_state.md R30, 70_reset_and_hazards.md R174). -/
def Obligations.SchedValidAfterEachTransaction : Prop :=
  ∀ (s t : State) (q : BusTxn) (rest : List PortEvent),
    s.pending = .txn q :: rest → s.rst = false → step s = .next t →
      ((∀ v, decodeTxn q ≠ .ok (.wrCmd v)) → t.block.schedValid = s.block.schedValid) ∧
      (∀ v, decodeTxn q = .ok (.wrCmd v) →
        (s.block.fatal = true → t.block.schedValid = s.block.schedValid) ∧
        (s.block.fatal = false →
          (∀ r, decodeCommand v = .error r → t.block.schedValid = s.block.schedValid) ∧
          (∀ klen, decodeCommand v = .ok (.config klen) → t.block.schedValid = false) ∧
          (∀ kbytes, decodeCommand v = .ok (.expand kbytes) →
            (t.block.schedValid = true ↔ s.block.cfgValid = true ∧ kbytes = 4 * s.block.nk.toNat)) ∧
          (∀ b n, decodeCommand v = .ok (.mulx b n) → t.block.schedValid = s.block.schedValid)))

/-- Only a KEY write writes the key latches, and it writes one latch (10_state.md R31). -/
def Obligations.KeyLatchesWrittenOnlyByHost : Prop :=
  ∀ (s t : State) (q : BusTxn) (rest : List PortEvent),
    s.pending = .txn q :: rest → step s = .next t →
      t.block.key = s.block.key ∨
        ∃ k v, decodeTxn q = .ok (.wrKey k v) ∧ s.rst = false ∧
          t.block.key[k.val] = unpack v ∧ ∀ j : Fin 8, j ≠ k → t.block.key[j.val] = s.block.key[j.val]

/-- Only EXPAND writes the schedule storage: all 60 Words on success, none on failure (10_state.md R32). -/
def Obligations.ScheduleWrittenOnlyByExpand : Prop :=
  ∀ (s t : State) (q : BusTxn) (rest : List PortEvent),
    s.pending = .txn q :: rest → step s = .next t →
      t.block.rk = s.block.rk ∨
        ∃ v kbytes, decodeTxn q = .ok (.wrCmd v) ∧ decodeCommand v = .ok (.expand kbytes) ∧ s.rst = false ∧
          t.block.err = .none ∧ t.block.schedValid = true ∧
          t.block.rk = keyExpansion Config.SBOX (keyBytes s.block.key s.block.nk.toNat)
            s.block.nk.toNat s.block.nr.toNat

/-- Only a successful MULX writes MULX_RES (10_state.md R33). -/
def Obligations.MulxResWrittenOnlyByMulx : Prop :=
  ∀ (s t : State) (q : BusTxn) (rest : List PortEvent),
    s.pending = .txn q :: rest → step s = .next t →
      t.block.mulxRes = s.block.mulxRes ∨
        ∃ v b n, decodeTxn q = .ok (.wrCmd v) ∧ decodeCommand v = .ok (.mulx b n) ∧ s.rst = false ∧
          s.block.fatal = false ∧ t.block.err = .none ∧ t.block.mulxRes = multByX b n

/-- Only CONFIG writes the configuration, and only while unlocked (10_state.md R22 to R24). -/
def Obligations.ConfigurationWrittenOnlyByConfig : Prop :=
  ∀ (s t : State) (q : BusTxn) (rest : List PortEvent),
    s.pending = .txn q :: rest → step s = .next t →
      (t.block.cfgValid = s.block.cfgValid ∧ t.block.nk = s.block.nk ∧ t.block.nr = s.block.nr) ∨
        ∃ v klen, decodeTxn q = .ok (.wrCmd v) ∧ decodeCommand v = .ok (.config klen) ∧ s.rst = false ∧
          s.block.fatal = false

/-! ### MULX (40_gf_multiplier.md) -/

/-- MULX from an unlocked state: the result and NONE, nothing else; with the corner cases of R102. -/
def Obligations.MulxResult : Prop :=
  (∀ (b : Byte) (n : Nat) (s : State), s.block.fatal = false →
    exec (.mulx b n) s = .next { s with
      block := { s.block with mulxRes := multByX b n, err := .none },
      outcomes := s.outcomes ++ [.writeOk] }) ∧
  (∀ b, multByX b 0 = b) ∧ (∀ n, multByX 0 n = 0) ∧ multByX 0x80 1 = 0x1B ∧ (∀ b, multByX b 255 = b)

/-- One doubling, as numbers: twice the byte, reduced by 0x11B where it leaves the byte (R100). -/
def Obligations.DoublingIsReducedShift : Prop :=
  ∀ b : Byte, (xtime b).toNat = if b.toNat > 127 then (2 * b.toNat % 256) ^^^ 0x1B else 2 * b.toNat

/-- The laws of the multiplier (R104): composition, the inverse of a doubling, the period 51 and that no shorter one
fixes a non-zero byte. -/
def Obligations.MultiplierLaws : Prop :=
  (∀ b m n, multByX (multByX b m) n = multByX b (m + n)) ∧
  (∀ b c : Byte, xtime b = c ↔
    b = if c.toNat % 2 = 0 then c >>> 1 else ((c ^^^ 0x1B) >>> 1) ||| 0x80) ∧
  (∀ b n, multByX b (n + 51) = multByX b n) ∧
  (∀ b n, b ≠ 0 → 1 ≤ n → n ≤ 50 → multByX b n ≠ b)

/-- MULX with `B = 1, N = m - 1` returns the round constant EXPAND uses at modifier `m` (R105, 42_key_expansion.md R121). -/
def Obligations.MulxGivesTheRoundConstant : Prop :=
  ∀ (m : Nat) (s : State), 1 ≤ m → m ≤ 255 → s.block.fatal = false →
    rcon m = multByX 0x01 (m - 1) ∧
    exec (.mulx 0x01 (m - 1)) s = .next { s with
      block := { s.block with mulxRes := rcon m, err := .none }, outcomes := s.outcomes ++ [.writeOk] }

/-- The round constants EXPAND uses (R121). -/
def Obligations.RoundConstantValues : Prop :=
  ((List.range 10).map fun k => rcon (k + 1)) = [0x01, 0x02, 0x04, 0x08, 0x10, 0x20, 0x40, 0x80, 0x1B, 0x36]

/-! ### EXPAND (42_key_expansion.md) -/

/-- EXPAND completes when unlocked, configured and given the configured key length in bytes: all of RK is the expansion of
the latches, SCHED_VALID is 1, ERR is NONE and nothing else changes but the hidden `W` and `word`, whose values R34 leaves
unspecified (R129). -/
def Obligations.ExpandWritesTheSchedule : Prop :=
  ∀ (kbytes : Nat) (s : State), s.block.fatal = false → s.block.cfgValid = true →
    ((s.block.nk = 4 ∧ s.block.nr = 10) ∨ (s.block.nk = 6 ∧ s.block.nr = 12) ∨
      (s.block.nk = 8 ∧ s.block.nr = 14)) →
    kbytes = 4 * s.block.nk.toNat →
      ∃ (a : Word) (c : BitVec 6) (m : Nat), exec (.expand kbytes) s = .next { s with
        block := { s.block with
          rk := keyExpansion Config.SBOX (keyBytes s.block.key s.block.nk.toNat)
            s.block.nk.toNat s.block.nr.toNat,
          schedValid := true, err := .none, w := a, word := c },
        outcomes := s.outcomes ++ [.writeOk], freeCount := m }

/-- EXPAND's own failures, in R129's order: the schedule is invalidated, RK keeps its words. -/
def Obligations.ExpandFailures : Prop :=
  ∀ (kbytes : Nat) (s : State), s.block.fatal = false →
    (s.block.cfgValid = false → exec (.expand kbytes) s = .next { s with
      block := { s.block with schedValid := false, err := .notConfigured },
      outcomes := s.outcomes ++ [.writeOk] }) ∧
    (s.block.cfgValid = true → kbytes ≠ 4 * s.block.nk.toNat → exec (.expand kbytes) s = .next { s with
      block := { s.block with schedValid := false, err := .keylenMismatch },
      outcomes := s.outcomes ++ [.writeOk] })

/-- The expansion, for every S-box and every key, as the recurrence of R122 to R128: seed words, then each word from the one
before it and the one `Nk` before it, with the round branch, the substitution branch or neither; then the zero tail. -/
def Obligations.ScheduleFollowsTheRecurrence : Prop :=
  ∀ (sbox : Byte → Byte) (key : Vector Word 8) (nk nr : Nat),
    (nk, nr) ∈ [(4, 10), (6, 12), (8, 14)] →
    (∀ i : Fin 8, i.val < nk →
      (keyExpansion sbox (keyBytes key nk) nk nr)[i.val]'(by have := i.isLt; omega) = key[i.val]) ∧
    ∀ w : Fin 60,
      (nk ≤ w.val → w.val < 4 * (nr + 1) →
        ∀ a c : Word, a = (keyExpansion sbox (keyBytes key nk) nk nr)[w.val - 1] →
          c = (keyExpansion sbox (keyBytes key nk) nk nr)[w.val - nk] →
          (w.val % nk = 0 → (keyExpansion sbox (keyBytes key nk) nk nr)[w.val] =
            ⟨sbox a.b1 ^^^ multByX 0x01 (w.val / nk - 1) ^^^ c.b0, sbox a.b2 ^^^ c.b1,
              sbox a.b3 ^^^ c.b2, sbox a.b0 ^^^ c.b3⟩) ∧
          (6 < nk → w.val % nk = 4 → (keyExpansion sbox (keyBytes key nk) nk nr)[w.val] =
            ⟨sbox a.b0 ^^^ c.b0, sbox a.b1 ^^^ c.b1, sbox a.b2 ^^^ c.b2, sbox a.b3 ^^^ c.b3⟩) ∧
          (w.val % nk ≠ 0 → ¬(6 < nk ∧ w.val % nk = 4) →
            (keyExpansion sbox (keyBytes key nk) nk nr)[w.val] =
              ⟨a.b0 ^^^ c.b0, a.b1 ^^^ c.b1, a.b2 ^^^ c.b2, a.b3 ^^^ c.b3⟩)) ∧
      (4 * (nr + 1) ≤ w.val → (keyExpansion sbox (keyBytes key nk) nk nr)[w.val] = ⟨0, 0, 0, 0⟩)

/-- At the top of every iteration the working word is the schedule word before the one to be derived (R123). -/
def Obligations.WorkingWordIsPreviousWord : Prop :=
  ∀ (sbox : Byte → Byte) (keySeq : List Byte) (nk nr k : Nat),
    (nk, nr) ∈ [(4, 10), (6, 12), (8, 14)] → k ≤ 4 * (nr + 1) - nk →
      (expandIters sbox nk k (expandStart keySeq nk)).word = nk + k ∧
      (expandIters sbox nk k (expandStart keySeq nk)).w =
        schedAt (expandIters sbox nk k (expandStart keySeq nk)).sched (nk + k - 1)

/-- After a successful EXPAND the first NK words are the key latches, byte for byte (R132). -/
def Obligations.SeedWordsEqualTheKey : Prop :=
  ∀ (kbytes : Nat) (s t : State), ConfigInv s.block → exec (.expand kbytes) s = .next t →
    t.block.err = .none →
      ∀ i : Fin 8, i.val < s.block.nk.toNat → t.block.rk[i.val]'(by have := i.isLt; omega) = s.block.key[i.val]

/-- EXPAND is a function of `KEY[0 .. NK-1]`, NK and NR alone: the other latches, the old schedule and everything else do
not matter (R131). -/
def Obligations.ExpandDependsOnlyOnActiveKey : Prop :=
  ∀ (kbytes : Nat) (s u t v : State),
    s.block.nk = u.block.nk → s.block.nr = u.block.nr →
    (∀ i : Fin 8, i.val < s.block.nk.toNat → s.block.key[i.val] = u.block.key[i.val]) →
    exec (.expand kbytes) s = .next t → exec (.expand kbytes) u = .next v →
    t.block.err = .none → v.block.err = .none →
      t.block.rk = v.block.rk

/-- The branches of each configuration (R130): which words take the round branch and with which modifier, and which
the substitution branch. -/
def Obligations.BranchPositions : Prop :=
  ∀ (sbox : Byte → Byte) (w : Nat) (a : Word),
    (4 ≤ w → w < 44 → branch sbox 4 w a =
      if w ∈ [4, 8, 12, 16, 20, 24, 28, 32, 36, 40] then roundBranch sbox (w / 4) a else a) ∧
    (6 ≤ w → w < 52 → branch sbox 6 w a =
      if w ∈ [6, 12, 18, 24, 30, 36, 42, 48] then roundBranch sbox (w / 6) a else a) ∧
    (8 ≤ w → w < 60 → branch sbox 8 w a =
      if w ∈ [8, 16, 24, 32, 40, 48, 56] then roundBranch sbox (w / 8) a
      else if w ∈ [12, 20, 28, 36, 44, 52] then subWord sbox a else a)

/-- Published key expansions with the reference S-box, which is general knowledge and not the machine's (entry 21;
95_test_vectors.md section 2.3: Z128, A1, A2, A3). -/
def Obligations.ReferenceSchedules : Prop :=
  pack (keyExpansion fipsSbox (List.replicate 16 0) 4 10)[4] = 0x62636363 ∧
  pack (keyExpansion fipsSbox (List.replicate 16 0) 4 10)[43] = 0x6F8F188E ∧
  pack (keyExpansion fipsSbox [0x2b, 0x7e, 0x15, 0x16, 0x28, 0xae, 0xd2, 0xa6, 0xab, 0xf7, 0x15, 0x88,
    0x09, 0xcf, 0x4f, 0x3c] 4 10)[43] = 0xB6630CA6 ∧
  pack (keyExpansion fipsSbox [0x8e, 0x73, 0xb0, 0xf7, 0xda, 0x0e, 0x64, 0x52, 0xc8, 0x10, 0xf3, 0x2b,
    0x80, 0x90, 0x79, 0xe5, 0x62, 0xf8, 0xea, 0xd2, 0x52, 0x2c, 0x6b, 0x7b] 6 12)[51] = 0x01002202 ∧
  pack (keyExpansion fipsSbox [0x60, 0x3d, 0xeb, 0x10, 0x15, 0xca, 0x71, 0xbe, 0x2b, 0x73, 0xae, 0xf0,
    0x85, 0x7d, 0x77, 0x81, 0x1f, 0x35, 0x2c, 0x07, 0x3b, 0x61, 0x08, 0xd7, 0x2d, 0x98, 0x10, 0xa3,
    0x09, 0x14, 0xdf, 0xf4] 8 14)[59] = 0x706C631E

/-! ### KEY writes (20_memory.md R50) -/

/-- WR_KEY completes in every state, writes its latch and changes nothing else (R50). -/
def Obligations.KeyWriteSetsItsLatch : Prop :=
  ∀ (k : Fin 8) (v : Reg32) (s : State), ∃ t, exec (.wrKey k v) s = .next t ∧
    t = { s with block := { s.block with key := t.block.key }, outcomes := s.outcomes ++ [.writeOk] } ∧
    t.block.key[k.val] = ⟨v.extractLsb' 24 8, v.extractLsb' 16 8, v.extractLsb' 8 8, v.extractLsb' 0 8⟩ ∧
    ∀ j : Fin 8, j ≠ k → t.block.key[j.val] = s.block.key[j.val]

/-- Repeating an access (20_memory.md R55): a read answers the same and changes nothing, a KEY write leaves what writing
once leaves, a second CONFIG leaves no valid schedule and a second invalid one reports `LOCKED` in place of `BAD_KEYLEN`
(so a CMD write is not idempotent), two EXPANDs write the same schedule. -/
def Obligations.RepeatedAccesses : Prop :=
  (∀ (i : Instr) (s : State), (i = .rdStatus ∨ i = .rdCfg ∨ i = .rdMulxRes ∨ ∃ w, i = .rdRk w) →
    ∃ r, exec i s = .next { s with outcomes := s.outcomes ++ [r] } ∧
      exec i { s with outcomes := s.outcomes ++ [r] } = .next { s with outcomes := s.outcomes ++ [r, r] }) ∧
  (∀ (k : Fin 8) (v : Reg32) (s t : State), exec (.wrKey k v) s = .next t →
    exec (.wrKey k v) t = .next { t with outcomes := t.outcomes ++ [.writeOk] }) ∧
  (∀ (klen klen' : Nat) (s t : State), s.block.fatal = false → exec (.config klen) s = .next t →
    ∃ u, exec (.config klen') t = .next u ∧ u.block.schedValid = false ∧
      (klen ≠ 128 → klen ≠ 192 → klen ≠ 256 → t.block.err = .badKeylen ∧ u.block.err = .locked)) ∧
  (∀ (kbytes : Nat) (s t : State), exec (.expand kbytes) s = .next t → t.block.err = .none →
    ∃ u, exec (.expand kbytes) t = .next u ∧ u.block.err = .none ∧ u.block.rk = t.block.rk)

/-- After a KEY write without an EXPAND the previous schedule is read, with no sign (70_reset_and_hazards.md R175). -/
def Obligations.StaleKeyReadsPreviousSchedule : Prop :=
  ∀ (k : Fin 8) (v : Reg32) (w : Fin 60) (s t : State), exec (.wrKey k v) s = .next t →
    s.block.schedValid = true → w.val < nwords s.block →
      exec (.rdRk w) t = .next { t with outcomes := t.outcomes ++ [.readData (pack s.block.rk[w.val])] }

/-! ### Invariants and what cannot be observed -/

/-- The configuration invariant holds after every step from a state where it holds, and gives `NR = NK + 6` (10_state.md
R27). -/
def Obligations.ConfigurationInvariantKept : Prop :=
  (∀ s t : State, ConfigInv s.block → step s = .next t → ConfigInv t.block) ∧
  (∀ b : Block, ConfigInv b → b.cfgValid = true → b.nr.toNat = b.nk.toNat + 6)

/-- All of 10_state.md R27 and R35 holds after every step from a state where it holds: the configuration, the lock, the
zero tail, and that a valid schedule is the expansion of some key under the current configuration. -/
def Obligations.BlockInvariantKept : Prop :=
  ∀ s t : State, BlockInv s.block → step s = .next t → BlockInv t.block

/-- The invariants hold at reset. -/
def Obligations.BlockInvariantAtReset : Prop := BlockInv State.reset.block

/-- The host cannot read the key latches (10_state.md R31): two states that differ only in them answer every transaction
but an EXPAND alike and differ only in them afterwards. -/
def Obligations.KeyLatchesAreNotReadable : Prop :=
  ∀ s u t : State, SameButKeys s u → ¬PresentsExpand s → step s = .next t →
    ∃ t', step u = .next t' ∧ SameButKeys t t' ∧ t'.outcomes = t.outcomes

/-- No run observes the hidden `W` and `word` (10_state.md R34): two states that differ only in them give the same outcomes
and states that differ at most in them, however many steps are taken. -/
def Obligations.HiddenElementsAreNotObservable : Prop :=
  ∀ (k : Nat) (s u t : State), SameButHidden s u → Host.Core.run core k s = .next t →
    ∃ t', Host.Core.run core k u = .next t' ∧ SameButHidden t t' ∧ t'.outcomes = t.outcomes
end

