-- ==== Sys2Proof/Laws/Decode.lean ====
section
/-! SUPPORT. What decoding can answer, once: each command word and each transaction, as an equivalence. -/

namespace Sys2Proof

/-- The number an appended bit vector is. -/
theorem toNat_append_add {m n : Nat} (x : BitVec m) (y : BitVec n) :
    (x ++ y).toNat = x.toNat * 2 ^ n + y.toNat := by
  rw [BitVec.toNat_append, ← Nat.shiftLeft_add_eq_or_of_lt y.isLt, Nat.shiftLeft_eq]

/-- A field equals a constant when the digits of the number do. -/
theorem extract_eq_iff {n : Nat} (v : BitVec n) (i m : Nat) (c : BitVec m) :
    v.extractLsb' i m = c ↔ v.toNat / 2 ^ i % 2 ^ m = c.toNat := by
  rw [← BitVec.toNat_inj, BitVec.extractLsb'_toNat, Nat.shiftRight_eq_div_pow]

/-- A field as a number. -/
theorem extract_toNat {n : Nat} (v : BitVec n) (i m : Nat) :
    (v.extractLsb' i m).toNat = v.toNat / 2 ^ i % 2 ^ m := by
  rw [BitVec.extractLsb'_toNat, Nat.shiftRight_eq_div_pow]

/-- The words of CONFIG, as numbers. -/
theorem decodeCommand_config_iff (v : Reg32) (k : Nat) :
    decodeCommand v = .ok (.config k) ↔ k < 65536 ∧ v.toNat = k * 65536 + 1 := by
  have hv := v.isLt
  unfold decodeCommand opField
  simp only [extract_eq_iff, ne_eq, extract_toNat]
  simp
  split_ifs <;> simp <;> omega

/-- The words of EXPAND, as numbers. -/
theorem decodeCommand_expand_iff (v : Reg32) (k : Nat) :
    decodeCommand v = .ok (.expand k) ↔ k < 256 ∧ v.toNat = k * 256 + 2 := by
  have hv := v.isLt
  unfold decodeCommand opField
  simp only [extract_eq_iff, ne_eq, extract_toNat]
  simp
  split_ifs <;> simp <;> omega

/-- The words of MULX, as numbers. -/
theorem decodeCommand_mulx_iff (v : Reg32) (b : Byte) (n : Nat) :
    decodeCommand v = .ok (.mulx b n) ↔ n < 256 ∧ v.toNat = n * 65536 + b.toNat * 256 + 3 := by
  have hv := v.isLt
  have hb := b.isLt
  unfold decodeCommand opField
  simp only [extract_eq_iff, ne_eq, extract_toNat]
  simp
  split_ifs <;> simp [extract_eq_iff] <;> omega

/-- The word an encoded command is, as a number. -/
theorem encodeCommand_eq_some_iff (c : Command) (v : Reg32) :
    encodeCommand c = some v ↔ c.wellFormed = true ∧ v.toNat = match c with
    | .config k => k * 65536 + 1
    | .expand k => k * 256 + 2
    | .mulx b n => n * 65536 + b.toNat * 256 + 3 := by
  unfold encodeCommand
  split
  · rename_i h
    simp only [h, true_and]
    cases c <;> simp only [Command.wellFormed, decide_eq_true_eq] at h <;>
      simp only [Option.some.injEq, ← BitVec.toNat_inj, toNat_append_add, BitVec.toNat_ofNat] <;> omega
  · simp_all

/-- Decoding and encoding a command word are each the other's inverse. -/
theorem decodeCommand_ok_iff (v : Reg32) (c : Command) : decodeCommand v = .ok c ↔ encodeCommand c = some v := by
  rw [encodeCommand_eq_some_iff]
  cases c with
  | config k => simp [decodeCommand_config_iff, Command.wellFormed]
  | expand k => simp [decodeCommand_expand_iff, Command.wellFormed]
  | mulx b n => simp [decodeCommand_mulx_iff, Command.wellFormed]

/-- The register at a register's offset is that register. -/
theorem regAt_offset (r : Reg) : regAt r.offset = some r := by
  have h : ∀ i : Fin 8, regAt (Reg.key i).offset = some (.key i) := by decide
  have h' : ∀ i : Fin 60, regAt (Reg.rk i).offset = some (.rk i) := by decide
  cases r <;> first | exact h _ | exact h' _ | decide

/-- At an aligned offset the map holds a register exactly where it is that register's offset. -/
theorem regAt_eq_some_iff (a : BitVec 10) (h : a.extractLsb' 0 2 = 0) (r : Reg) :
    regAt a = some r ↔ a = r.offset := by
  refine ⟨fun hr => ?_, fun hr => hr ▸ regAt_offset r⟩
  rw [extract_eq_iff] at h
  simp at h
  unfold regAt at hr
  split_ifs at hr <;> simp only [Option.some.injEq] at hr <;> subst hr <;> try assumption
  all_goals
    rw [← BitVec.toNat_inj]
    simp only [Reg.offset, BitVec.toNat_ofNat]
    omega

/-- Every register stands at a multiple of 4. -/
theorem offset_aligned (r : Reg) : r.offset.extractLsb' 0 2 = 0 := by
  have h : ∀ i : Fin 8, (Reg.key i).offset.extractLsb' 0 2 = 0 := by decide
  have h' : ∀ i : Fin 60, (Reg.rk i).offset.extractLsb' 0 2 = 0 := by decide
  cases r <;> first | exact h _ | exact h' _ | decide

/-- The direction, the register and the written data of an instruction that is a host transaction. -/
def portForm : Instr → Option (Bool × Reg × Option Reg32)
  | .config _ => none
  | .expand _ => none
  | .mulx _ _ => none
  | .wrCmd v => some (true, .cmd, some v)
  | .wrKey k v => some (true, .key k, some v)
  | .rdStatus => some (false, .status, none)
  | .rdCfg => some (false, .cfg, none)
  | .rdMulxRes => some (false, .mulxRes, none)
  | .rdRk w => some (false, .rk w, none)

/-- The admitted accesses are the transactions' forms. -/
theorem accessOf_ok_iff (we : Bool) (v : Reg32) (r : Reg) (i : Instr) :
    accessOf we v r = .ok i ↔ portForm i = some (we, r, if we then some v else none) := by
  constructor
  · intro h
    cases r <;> cases we <;> simp [accessOf] at h <;> subst h <;> rfl
  · intro h
    cases i <;> simp only [portForm, Option.some.injEq, Prod.mk.injEq, reduceCtorEq] at h
    all_goals obtain ⟨rfl, rfl, h⟩ := h
    all_goals first | rfl | simp at h
    all_goals subst h; rfl

/-- A transaction performs an instruction exactly when it has its form: 4 bytes at the register's offset. -/
theorem decodeTxn_ok_iff (t : BusTxn) (i : Instr) :
    decodeTxn t = .ok i ↔ t.size = 2 ∧
      ∃ r : Reg, t.addr = r.offset ∧ portForm i = some (t.we, r, if t.we then some t.wdata else none) := by
  unfold decodeTxn
  by_cases h1 : t.size = 2
  · by_cases h2 : t.addr.extractLsb' 0 2 = 0
    · simp only [h1, h2, ne_eq, not_true_eq_false, if_false, true_and]
      cases hr : regAt t.addr with
      | none =>
        simp only [reduceCtorEq, false_iff]
        rintro ⟨r, e, -⟩
        rw [e, regAt_offset] at hr
        cases hr
      | some r =>
        have e := (regAt_eq_some_iff t.addr h2 r).1 hr
        simp only [accessOf_ok_iff]
        constructor
        · exact fun h => ⟨r, e, h⟩
        · rintro ⟨r', e', h⟩
          rw [e', regAt_offset] at hr
          cases hr
          exact h
    · simp only [h1, h2, ne_eq, not_true_eq_false, not_false_eq_true, if_true, if_false, reduceCtorEq, true_and, false_iff]
      rintro ⟨r, e, -⟩
      exact h2 (e ▸ offset_aligned r)
  · simp only [h1, ne_eq, not_false_eq_true, if_true, reduceCtorEq, false_and]

/-- A transaction that performs a CMD write is the CMD write of its word. -/
theorem decodeTxn_wrCmd_iff (t : BusTxn) (v : Reg32) : decodeTxn t = .ok (.wrCmd v) ↔ t = cmdWriteTxn v := by
  rw [decodeTxn_ok_iff]
  constructor
  · rintro ⟨h, r, e, h'⟩
    obtain ⟨we, size, addr, wdata⟩ := t
    simp only [portForm, Option.some.injEq, Prod.mk.injEq] at h' h e
    obtain ⟨rfl, rfl, h'⟩ := h'
    simp only [if_true, Option.some.injEq] at h'
    subst h'; subst h; subst e
    rfl
  · rintro rfl
    exact ⟨rfl, .cmd, rfl, rfl⟩

/-- No transaction decodes to a bare command: commands are carried by CMD writes. -/
theorem decodeTxn_ne_command (t : BusTxn) (c : Command) : decodeTxn t ≠ .ok c.toInstr := by
  intro h
  obtain ⟨-, r, -, h'⟩ := (decodeTxn_ok_iff t _).1 h
  cases c <;> simp [Command.toInstr, portForm] at h'

end Sys2Proof
end

