-- ==== Sys2Proof/Laws/Multiplier.lean ====
section
/-! SUPPORT. The doubling and its iterates. -/

namespace Sys2Proof.Machine

/-- Doublings may be counted from the inside as well. -/
theorem multByX_succ_inside (b : Byte) (n : Nat) : multByX b (n + 1) = multByX (xtime b) n := by
  induction n with
  | zero => rfl
  | succ n ih => rw [multByX, ih, multByX]

/-- Iterates compose. -/
theorem multByX_multByX (b : Byte) (m n : Nat) : multByX (multByX b m) n = multByX b (m + n) := by
  induction n with
  | zero => rfl
  | succ n ih => rw [multByX, ih, Nat.add_succ, multByX]

/-- The round constant is an iterate at every modifier from 1, on either path (42_key_expansion.md R121). -/
theorem rcon_path (m : Nat) : (if m = 1 then (0x01 : Byte) else multByX 0x01 (m - 1)) = multByX 0x01 (m - 1) := by
  split
  · next h => subst h; rfl
  · rfl

end Sys2Proof.Machine
end

