-- ==== Sys2Proof/Laws/State.lean ====
section
/-! SUPPORT. One lemma per field per update of the state, so that no proof unfolds a record update. -/

namespace Sys2Proof.Machine

@[simp] theorem setBlock_block (s : State) (b : Block) : (s.setBlock b).block = b := rfl
@[simp] theorem setBlock_pending (s : State) (b : Block) : (s.setBlock b).pending = s.pending := rfl
@[simp] theorem setBlock_outcomes (s : State) (b : Block) : (s.setBlock b).outcomes = s.outcomes := rfl
@[simp] theorem setBlock_rst (s : State) (b : Block) : (s.setBlock b).rst = s.rst := rfl
@[simp] theorem setBlock_freeCount (s : State) (b : Block) : (s.setBlock b).freeCount = s.freeCount := rfl

@[simp] theorem respond_block (s : State) (r : Response) : (s.respond r).block = s.block := rfl
@[simp] theorem respond_pending (s : State) (r : Response) : (s.respond r).pending = s.pending := rfl
@[simp] theorem respond_outcomes (s : State) (r : Response) : (s.respond r).outcomes = s.outcomes ++ [r] := rfl
@[simp] theorem respond_rst (s : State) (r : Response) : (s.respond r).rst = s.rst := rfl
@[simp] theorem respond_freeCount (s : State) (r : Response) : (s.respond r).freeCount = s.freeCount := rfl

@[simp] theorem failCommand_err (e : ErrCode) (b : Block) : (failCommand e b).err = e := rfl
@[simp] theorem failCommand_cfgValid (e : ErrCode) (b : Block) : (failCommand e b).cfgValid = b.cfgValid := rfl
@[simp] theorem failCommand_nk (e : ErrCode) (b : Block) : (failCommand e b).nk = b.nk := rfl
@[simp] theorem failCommand_nr (e : ErrCode) (b : Block) : (failCommand e b).nr = b.nr := rfl
@[simp] theorem failCommand_fatal (e : ErrCode) (b : Block) : (failCommand e b).fatal = b.fatal := rfl
@[simp] theorem failCommand_schedValid (e : ErrCode) (b : Block) :
    (failCommand e b).schedValid = b.schedValid := rfl
@[simp] theorem failCommand_key (e : ErrCode) (b : Block) : (failCommand e b).key = b.key := rfl
@[simp] theorem failCommand_rk (e : ErrCode) (b : Block) : (failCommand e b).rk = b.rk := rfl
@[simp] theorem failCommand_mulxRes (e : ErrCode) (b : Block) : (failCommand e b).mulxRes = b.mulxRes := rfl

@[simp] theorem failExpand_err (e : ErrCode) (b : Block) : (failExpand e b).err = e := rfl
@[simp] theorem failExpand_cfgValid (e : ErrCode) (b : Block) : (failExpand e b).cfgValid = b.cfgValid := rfl
@[simp] theorem failExpand_nk (e : ErrCode) (b : Block) : (failExpand e b).nk = b.nk := rfl
@[simp] theorem failExpand_nr (e : ErrCode) (b : Block) : (failExpand e b).nr = b.nr := rfl
@[simp] theorem failExpand_fatal (e : ErrCode) (b : Block) : (failExpand e b).fatal = b.fatal := rfl
@[simp] theorem failExpand_schedValid (e : ErrCode) (b : Block) : (failExpand e b).schedValid = false := rfl
@[simp] theorem failExpand_key (e : ErrCode) (b : Block) : (failExpand e b).key = b.key := rfl
@[simp] theorem failExpand_rk (e : ErrCode) (b : Block) : (failExpand e b).rk = b.rk := rfl
@[simp] theorem failExpand_mulxRes (e : ErrCode) (b : Block) : (failExpand e b).mulxRes = b.mulxRes := rfl

@[simp] theorem expandedState_pending (f : Byte → Byte) (s : State) :
    (expandedState f s).pending = s.pending := rfl
@[simp] theorem expandedState_outcomes (f : Byte → Byte) (s : State) :
    (expandedState f s).outcomes = s.outcomes := rfl
@[simp] theorem expandedState_rst (f : Byte → Byte) (s : State) : (expandedState f s).rst = s.rst := rfl
@[simp] theorem expandedState_cfgValid (f : Byte → Byte) (s : State) :
    (expandedState f s).block.cfgValid = s.block.cfgValid := rfl
@[simp] theorem expandedState_nk (f : Byte → Byte) (s : State) :
    (expandedState f s).block.nk = s.block.nk := rfl
@[simp] theorem expandedState_nr (f : Byte → Byte) (s : State) :
    (expandedState f s).block.nr = s.block.nr := rfl
@[simp] theorem expandedState_fatal (f : Byte → Byte) (s : State) :
    (expandedState f s).block.fatal = s.block.fatal := rfl
@[simp] theorem expandedState_err (f : Byte → Byte) (s : State) :
    (expandedState f s).block.err = .none := rfl
@[simp] theorem expandedState_schedValid (f : Byte → Byte) (s : State) :
    (expandedState f s).block.schedValid = true := rfl
@[simp] theorem expandedState_key (f : Byte → Byte) (s : State) :
    (expandedState f s).block.key = s.block.key := rfl
@[simp] theorem expandedState_rk (f : Byte → Byte) (s : State) :
    (expandedState f s).block.rk = blockSchedule f s.block := rfl
@[simp] theorem expandedState_mulxRes (f : Byte → Byte) (s : State) :
    (expandedState f s).block.mulxRes = s.block.mulxRes := rfl

@[simp] theorem raiseReset_pending (s : State) : (raiseReset s).pending = s.pending := rfl
@[simp] theorem raiseReset_outcomes (s : State) : (raiseReset s).outcomes = s.outcomes := rfl
@[simp] theorem raiseReset_rst (s : State) : (raiseReset s).rst = true := rfl
@[simp] theorem raiseReset_block (s : State) : (raiseReset s).block =
    Block.atReset (Config.freeW s.freeCount) (Config.freeWord s.freeCount) := rfl

@[simp] theorem releaseReset_block (s : State) : (releaseReset s).block = s.block := rfl
@[simp] theorem releaseReset_pending (s : State) : (releaseReset s).pending = s.pending := rfl
@[simp] theorem releaseReset_outcomes (s : State) : (releaseReset s).outcomes = s.outcomes := rfl
@[simp] theorem releaseReset_rst (s : State) : (releaseReset s).rst = false := rfl

@[simp] theorem presentTxn_block (t : BusTxn) (s : State) : (presentTxn t s).block = s.block := rfl
@[simp] theorem presentTxn_pending (t : BusTxn) (s : State) :
    (presentTxn t s).pending = .txn t :: s.pending := rfl
@[simp] theorem presentTxn_outcomes (t : BusTxn) (s : State) : (presentTxn t s).outcomes = s.outcomes := rfl
@[simp] theorem presentTxn_rst (t : BusTxn) (s : State) : (presentTxn t s).rst = false := rfl

end Sys2Proof.Machine
end

