-- ==== Sys2Proof/Laws/Ops.lean ====
section
/-! SUPPORT. What each shared operation and each meaning can do, once, for the provers to cite. -/

namespace Sys2Proof.Machine

/-- A completed write, written out. -/
theorem writeDone_eq (b : Block) (s : State) :
    writeDone b s = .next { s with block := b, outcomes := s.outcomes ++ [.writeOk] } := rfl

/-- A completed read, written out. -/
theorem readDone_eq (v : Reg32) (s : State) :
    readDone v s = .next { s with outcomes := s.outcomes ++ [.readData v] } := rfl

/-- A bus error, written out. -/
theorem raiseBusError_eq (c : BusCause) (s : State) :
    raiseBusError c s = .next { s with outcomes := s.outcomes ++ [.busError c] } := rfl

/-- Under the lock a command writes `LOCKED` and nothing else. -/
theorem underLock_locked (f : State → Result) (s : State) (h : s.block.fatal = true) :
    underLock f s = writeDone (failCommand .locked s.block) s := if_pos h

/-- Without the lock a command is its own effect. -/
theorem underLock_unlocked (f : State → Result) (s : State) (h : s.block.fatal = false) :
    underLock f s = f s := by simp [underLock, h]

theorem schedAt_of_lt (sched : Vector Word 60) (i : Nat) (h : i < 60) : schedAt sched i = sched[i] := dif_pos h

theorem schedAt_schedSet_self (sched : Vector Word 60) (i : Nat) (a : Word) (h : i < 60) :
    schedAt (schedSet sched i a) i = a := by simp [schedAt, schedSet, h]

theorem schedAt_schedSet_ne (sched : Vector Word 60) (i j : Nat) (a : Word) (h : i ≠ j) :
    schedAt (schedSet sched i a) j = schedAt sched j := by
  unfold schedAt schedSet
  split_ifs <;> simp [h]

/-- A word that decodes to a command makes a CMD write the command itself. -/
theorem execWrCmd_of_decode (v : Reg32) (c : Command) (h : decodeCommand v = .ok c) (s : State) :
    execWrCmd v s = exec c.toInstr s := by
  unfold execWrCmd underLock performWord
  rw [h]
  cases c <;> rfl

/-- Everything a CMD write can do. -/
inductive CmdEffect (v : Reg32) (s : State) : State → Prop where
  | locked (hf : s.block.fatal = true) :
      CmdEffect v s ((s.setBlock (failCommand .locked s.block)).respond .writeOk)
  | illegal (r : CommandReject) (hf : s.block.fatal = false) (hd : decodeCommand v = .error r) :
      CmdEffect v s ((s.setBlock (failCommand .illegalCmd s.block)).respond .writeOk)
  | config (klen : Nat) (hf : s.block.fatal = false) (hd : decodeCommand v = .ok (.config klen)) :
      CmdEffect v s ((s.setBlock (configBlock klen s.block)).respond .writeOk)
  | notConfigured (kbytes : Nat) (hf : s.block.fatal = false) (hd : decodeCommand v = .ok (.expand kbytes))
      (hc : s.block.cfgValid = false) :
      CmdEffect v s ((s.setBlock (failExpand .notConfigured s.block)).respond .writeOk)
  | keylenMismatch (kbytes : Nat) (hf : s.block.fatal = false)
      (hd : decodeCommand v = .ok (.expand kbytes)) (hc : s.block.cfgValid = true)
      (hk : kbytes ≠ 4 * s.block.nk.toNat) :
      CmdEffect v s ((s.setBlock (failExpand .keylenMismatch s.block)).respond .writeOk)
  | expanded (kbytes : Nat) (hf : s.block.fatal = false) (hd : decodeCommand v = .ok (.expand kbytes))
      (hc : s.block.cfgValid = true) (hk : kbytes = 4 * s.block.nk.toNat)
      (hp : configuredPair s.block.nk s.block.nr = true) :
      CmdEffect v s ((expandedState Config.SBOX s).respond .writeOk)
  | mulx (b : Byte) (n : Nat) (hf : s.block.fatal = false) (hd : decodeCommand v = .ok (.mulx b n)) :
      CmdEffect v s
        ((s.setBlock { s.block with mulxRes := multByX b n, err := .none }).respond .writeOk)

/-- A CMD write that answers a next state did one of these. -/
theorem execWrCmd_cases {v : Reg32} {s t : State} (h : execWrCmd v s = .next t) : CmdEffect v s t := by
  cases hf : s.block.fatal with
  | true =>
    rw [execWrCmd, underLock_locked _ _ hf] at h
    cases h
    exact .locked hf
  | false =>
    rw [execWrCmd, underLock_unlocked _ _ hf, performWord] at h
    match hd : decodeCommand v with
    | .error r => rw [hd] at h; cases h; exact .illegal r hf hd
    | .ok (.config klen) => rw [hd] at h; cases h; exact .config klen hf hd
    | .ok (.mulx b n) => rw [hd] at h; cases h; exact .mulx b n hf hd
    | .ok (.expand kbytes) =>
      rw [hd] at h
      simp only [performExpand] at h
      split_ifs at h with hc hk hp
      · cases h; exact .notConfigured kbytes hf hd hc
      · cases h; exact .keylenMismatch kbytes hf hd (by simpa using hc) hk
      · cases h
        exact .expanded kbytes hf hd (by simpa using hc) (by simpa using hk) (by simpa using hp)

/-- A CMD write stops only where EXPAND meets a pair that no CONFIG writes. -/
theorem execWrCmd_fault_iff (v : Reg32) (s : State) (r : Fault) : execWrCmd v s = .fault r ↔
    r = .unconfiguredPair ∧ s.block.fatal = false ∧ s.block.cfgValid = true ∧
      configuredPair s.block.nk s.block.nr = false ∧
      ∃ kbytes, decodeCommand v = .ok (.expand kbytes) ∧ kbytes = 4 * s.block.nk.toNat := by
  cases hf : s.block.fatal with
  | true => simp [execWrCmd, underLock_locked _ _ hf, writeDone_eq]
  | false =>
    rw [execWrCmd, underLock_unlocked _ _ hf, performWord]
    match hd : decodeCommand v with
    | .error r => simp [writeDone_eq]
    | .ok (.config klen) => simp [performConfig, writeDone_eq]
    | .ok (.mulx b n) => simp [performMulx, writeDone_eq]
    | .ok (.expand kbytes) =>
      simp only [performExpand]
      split_ifs with hc hk hp
      · simp [writeDone_eq, hc]
      · simpa [writeDone_eq] using fun _ _ => hk
      · constructor
        · exact fun _ => ⟨by trivial, by trivial, by simpa using hc, hp, kbytes, rfl, not_not.1 hk⟩
        · exact fun _ => by cases r; rfl
      · simp [hp]

/-- A CMD write never answers a refusal. -/
theorem execWrCmd_ne_refused (v : Reg32) (s : State) (r : Refusal) : execWrCmd v s ≠ .refused r := by
  cases hf : s.block.fatal with
  | true => simp [execWrCmd, underLock_locked _ _ hf, writeDone_eq]
  | false =>
    rw [execWrCmd, underLock_unlocked _ _ hf, performWord]
    match hd : decodeCommand v with
    | .error r => simp [writeDone_eq]
    | .ok (.config klen) => simp [performConfig, writeDone_eq]
    | .ok (.mulx b n) => simp [performMulx, writeDone_eq]
    | .ok (.expand kbytes) =>
      simp only [performExpand]
      split_ifs <;> simp [writeDone_eq]

/-- RD_RK completes with one outcome: data of a valid schedule below NWORDS, or one of its two bus errors. -/
theorem execRdRk_eq (w : Fin 60) (s : State) : execRdRk w s = .next (s.respond
    (if s.block.schedValid = false then .busError .rkInvalid
     else if w.val ≥ nwords s.block then .busError .rkRange
     else .readData (pack s.block.rk[w.val]))) := by
  unfold execRdRk
  split_ifs <;> rfl

/-- What a host transaction other than a CMD write does: a KEY write writes its latch, a read only answers. -/
theorem exec_txn_cases {q : BusTxn} {i : Instr} {s t : State} (hq : decodeTxn q = .ok i)
    (h : exec i s = .next t) :
    (∃ v, i = .wrCmd v ∧ q = cmdWriteTxn v ∧ CmdEffect v s t) ∨
    (∃ k v, i = .wrKey k v ∧ q.we = true ∧
      t = (s.setBlock { s.block with key := s.block.key.set k.val (unpack v) }).respond .writeOk) ∨
    (q.we = false ∧ (∀ v, i ≠ .wrCmd v) ∧ (∀ k v, i ≠ .wrKey k v) ∧
      ((∃ v, t = s.respond (.readData v)) ∨ ∃ c, t = s.respond (.busError c))) := by
  obtain ⟨-, r, -, hp⟩ := (decodeTxn_ok_iff q i).1 hq
  cases i with
  | config | expand | mulx => simp [portForm] at hp
  | wrCmd v => exact .inl ⟨v, rfl, (decodeTxn_wrCmd_iff q v).1 hq, execWrCmd_cases h⟩
  | wrKey k v =>
    simp only [portForm, Option.some.injEq, Prod.mk.injEq] at hp
    cases h
    exact .inr (.inl ⟨k, v, rfl, hp.1.symm, rfl⟩)
  | rdStatus | rdCfg | rdMulxRes =>
    simp only [portForm, Option.some.injEq, Prod.mk.injEq] at hp
    cases h
    exact .inr (.inr ⟨hp.1.symm, by simp, by simp, .inl ⟨_, rfl⟩⟩)
  | rdRk w =>
    simp only [portForm, Option.some.injEq, Prod.mk.injEq] at hp
    rw [exec, execRdRk_eq] at h
    cases h
    refine .inr (.inr ⟨hp.1.symm, by simp, by simp, ?_⟩)
    split_ifs
    · exact .inr ⟨_, rfl⟩
    · exact .inr ⟨_, rfl⟩
    · exact .inl ⟨_, rfl⟩

end Sys2Proof.Machine
end

