-- ==== Sys2Proof/Laws/Expand.lean ====
section
/-! SUPPORT. The derivation loop of EXPAND: what its counter, its working word and its schedule are after any number of
iterations, and the seed words. -/

namespace Sys2Proof.Machine

/-- The last of `k + 1` iterations. -/
theorem expandIters_succ (f : Byte → Byte) (nk k : Nat) (l : ExpandLoop) :
    expandIters f nk (k + 1) l = expandIter f nk (expandIters f nk k l) := by
  induction k generalizing l with
  | zero => rfl
  | succ k ih => rw [expandIters, ih, expandIters]

/-- The counter counts the iterations. -/
theorem expandIters_word (f : Byte → Byte) (nk k : Nat) (l : ExpandLoop) :
    (expandIters f nk k l).word = l.word + k := by
  induction k with
  | zero => rfl
  | succ k ih => rw [expandIters_succ]; show (expandIters f nk k l).word + 1 = _; omega

/-- One iteration leaves every word but its own. -/
theorem expandIter_sched_ne (f : Byte → Byte) (nk i : Nat) (l : ExpandLoop) (h : l.word ≠ i) :
    schedAt (expandIter f nk l).sched i = schedAt l.sched i := schedAt_schedSet_ne _ _ _ _ h

/-- One iteration stores the new working word as its own word. -/
theorem expandIter_sched_self (f : Byte → Byte) (nk : Nat) (l : ExpandLoop) (h : l.word < 60) :
    schedAt (expandIter f nk l).sched l.word = (expandIter f nk l).w := schedAt_schedSet_self _ _ _ h

/-- The words below the counter are final. -/
theorem expandIters_sched_below (f : Byte → Byte) (nk i k : Nat) (l : ExpandLoop) (h : i < l.word) :
    schedAt (expandIters f nk k l).sched i = schedAt l.sched i := by
  induction k with
  | zero => rfl
  | succ k ih =>
    rw [expandIters_succ, expandIter_sched_ne, ih]
    rw [expandIters_word]
    omega

/-- More iterations leave the words that fewer have made. -/
theorem expandIters_sched_stable (f : Byte → Byte) (nk i k m : Nat) (l : ExpandLoop) (h : i < l.word + k)
    (hm : k ≤ m) : schedAt (expandIters f nk m l).sched i = schedAt (expandIters f nk k l).sched i := by
  induction m, hm using Nat.le_induction with
  | base => rfl
  | succ m hm ih =>
    rw [expandIters_succ, expandIter_sched_ne, ih]
    rw [expandIters_word]
    omega

/-- The seed words of a list of Words, from its bytes. -/
theorem wordOfBytes_flatMap (l : List Word) (i : Nat) (h : i < l.length) :
    wordOfBytes (l.flatMap wordBytes) i = l[i] := by
  induction l generalizing i with
  | nil => exact absurd h (Nat.not_lt_zero i)
  | cons a l ih =>
    cases i with
    | zero => rfl
    | succ i =>
      have := ih i (by simpa using h)
      simpa [wordOfBytes, wordBytes, Nat.mul_add] using this

/-- Seed word `i` is key latch `i` (42_key_expansion.md R122, R129). -/
theorem wordOfBytes_keyBytes (key : Vector Word 8) (nk : Nat) (i : Fin 8) (h : i.val < nk) :
    wordOfBytes (keyBytes key nk) i.val = key[i.val] := by
  rw [keyBytes, wordOfBytes_flatMap _ _ (by simp; omega)]
  simp

/-- The schedule before the loop. -/
theorem seedSchedule_at (bytes : List Byte) (nk i : Nat) (h : i < 60) :
    schedAt (seedSchedule bytes nk) i = if i < nk then wordOfBytes bytes i else Word.zero := by
  simp [schedAt, seedSchedule, h]

/-- A word of the expansion: what the loop has made below the schedule's length, zero beyond. -/
theorem keyExpansion_get (f : Byte → Byte) (bytes : List Byte) (nk nr i : Nat) (h : i < 60) :
    (keyExpansion f bytes nk nr)[i] = if i < scheduleWords nr then
      schedAt (expandIters f nk (scheduleWords nr - nk) (expandStart bytes nk)).sched i else Word.zero := by
  simp [keyExpansion, zeroTail, schedAt, h]

end Sys2Proof.Machine
end

