-- ==== Sys2Proof/Laws/PerInstr.lean ====
section
/-! SUPPORT. A statement for every instruction: an instruction has a bit pattern exactly when it is well formed, so the
assembler refuses an operand out of its range and no other (30_encoding.md R80). -/

namespace Sys2Proof.Laws.Encodes

/-- The statement about one instruction. -/
def Statement (i : Instr) : Prop := (∃ c, encode i = some c) ↔ i.wellFormed = true

/-- A command has a word exactly when it is well formed. -/
theorem command_iff (c : Command) : (∃ v, encodeCommand c = some v) ↔ c.wellFormed = true := by
  constructor
  · rintro ⟨v, h⟩
    exact ((encodeCommand_eq_some_iff c v).1 h).1
  · intro h
    cases c <;> simp [encodeCommand, h]

theorem config (klen : Nat) : Statement (.config klen) := by
  simpa [Statement, encode, Instr.wellFormed] using command_iff (.config klen)
theorem expand (kbytes : Nat) : Statement (.expand kbytes) := by
  simpa [Statement, encode, Instr.wellFormed] using command_iff (.expand kbytes)
theorem mulx (b : Byte) (n : Nat) : Statement (.mulx b n) := by
  simpa [Statement, encode, Instr.wellFormed] using command_iff (.mulx b n)
theorem wrCmd (v : Reg32) : Statement (.wrCmd v) := by simp [Statement, encode, Instr.wellFormed]
theorem wrKey (k : Fin 8) (v : Reg32) : Statement (.wrKey k v) := by simp [Statement, encode, Instr.wellFormed]
theorem rdStatus : Statement .rdStatus := by simp [Statement, encode, Instr.wellFormed]
theorem rdCfg : Statement .rdCfg := by simp [Statement, encode, Instr.wellFormed]
theorem rdMulxRes : Statement .rdMulxRes := by simp [Statement, encode, Instr.wellFormed]
theorem rdRk (w : Fin 60) : Statement (.rdRk w) := by simp [Statement, encode, Instr.wellFormed]

end Sys2Proof.Laws.Encodes
end

