-- ==== Sys2Proof/Laws/Step.lean ====
section
/-! SUPPORT. Everything one step can do. -/

namespace Sys2Proof.Machine

/-- A step with nothing presented. -/
theorem step_nil {s : State} (h : s.pending = []) : step s = .next s := by simp [step, fetch, h]

/-- A step on a rise of `rst`. -/
theorem step_rstRise {s : State} {p : Option BusTxn} {rest : List PortEvent}
    (h : s.pending = .rstRise p :: rest) : step s = .next (raiseReset { s with pending := rest }) := by
  simp [step, fetch, h, portEvent]

/-- A step on a fall of `rst`. -/
theorem step_rstFall {s : State} {rest : List PortEvent} (h : s.pending = .rstFall :: rest) :
    step s = .next (releaseReset { s with pending := rest }) := by
  simp [step, fetch, h, portEvent]

/-- A step on a transaction while `rst` is high. -/
theorem step_txn_rst {s : State} {q : BusTxn} {rest : List PortEvent} (h : s.pending = .txn q :: rest)
    (hr : s.rst = true) : step s = .next { s with pending := rest } := by
  simp [step, fetch, h, portEvent, acceptTxn, hr]

/-- A step on a transaction that is a bus error whatever the state. -/
theorem step_txn_error {s : State} {q : BusTxn} {rest : List PortEvent} {c : BusCause}
    (h : s.pending = .txn q :: rest) (hr : s.rst = false) (hd : decodeTxn q = .error c) :
    step s = raiseBusError c { s with pending := rest } := by
  simp [step, fetch, h, portEvent, acceptTxn, hr, hd]

/-- A step on a transaction that performs an instruction. -/
theorem step_txn_ok {s : State} {q : BusTxn} {rest : List PortEvent} {i : Instr}
    (h : s.pending = .txn q :: rest) (hr : s.rst = false) (hd : decodeTxn q = .ok i) :
    step s = exec i { s with pending := rest } := by
  simp [step, fetch, h, portEvent, acceptTxn, hr, hd]

/-- Everything a step that answers a next state can do. -/
inductive StepEffect (s : State) : State → Prop where
  | idle (h : s.pending = []) : StepEffect s s
  | rstRise (p : Option BusTxn) (rest : List PortEvent) (h : s.pending = .rstRise p :: rest) :
      StepEffect s (raiseReset { s with pending := rest })
  | rstFall (rest : List PortEvent) (h : s.pending = .rstFall :: rest) :
      StepEffect s (releaseReset { s with pending := rest })
  | underReset (q : BusTxn) (rest : List PortEvent) (h : s.pending = .txn q :: rest) (hr : s.rst = true) :
      StepEffect s { s with pending := rest }
  | busError (q : BusTxn) (rest : List PortEvent) (c : BusCause) (h : s.pending = .txn q :: rest)
      (hr : s.rst = false) (hd : decodeTxn q = .error c) :
      StepEffect s (State.respond { s with pending := rest } (.busError c))
  | run (q : BusTxn) (rest : List PortEvent) (i : Instr) (t : State) (h : s.pending = .txn q :: rest)
      (hr : s.rst = false) (hd : decodeTxn q = .ok i) (he : exec i { s with pending := rest } = .next t) :
      StepEffect s t

/-- A step that answers a next state did one of these. -/
theorem step_cases {s t : State} (h : step s = .next t) : StepEffect s t := by
  match hp : s.pending with
  | [] => rw [step_nil hp] at h; cases h; exact .idle hp
  | .rstRise p :: rest => rw [step_rstRise hp] at h; cases h; exact .rstRise p rest hp
  | .rstFall :: rest => rw [step_rstFall hp] at h; cases h; exact .rstFall rest hp
  | .txn q :: rest =>
    cases hr : s.rst with
    | true => rw [step_txn_rst hp hr] at h; cases h; exact .underReset q rest hp hr
    | false =>
      match hd : decodeTxn q with
      | .error c => rw [step_txn_error hp hr hd] at h; cases h; exact .busError q rest c hp hr hd
      | .ok i => rw [step_txn_ok hp hr hd] at h; exact .run q rest i t hp hr hd h

/-- The run of a machine whose step answers a next state. -/
theorem run_succ_of (M : Host.Core) (n : Nat) (s t : M.State) (h : M.step s = .next t) :
    Host.Core.run M (n + 1) s = Host.Core.run M n t := by
  simp only [Host.Core.run, h]

/-- A run that answers a next state begins with a step that does. -/
theorem run_next_cases_of (M : Host.Core) (n : Nat) (s t : M.State) (h : Host.Core.run M (n + 1) s = .next t) :
    ∃ u, M.step s = .next u ∧ Host.Core.run M n u = .next t := by
  simp only [Host.Core.run] at h
  split at h <;> simp_all

/-- No step. -/
theorem run_zero (s : State) : Host.Core.run core 0 s = .next s := rfl

/-- One step, then the others. -/
theorem run_succ {s t : State} (n : Nat) (h : step s = .next t) :
    Host.Core.run core (n + 1) s = Host.Core.run core n t := run_succ_of core n s t h

/-- The first step of a run that answers a next state. -/
theorem run_next_cases {s t : State} (n : Nat) (h : Host.Core.run core (n + 1) s = .next t) :
    ∃ u : State, step s = .next u ∧ Host.Core.run core n u = .next t := run_next_cases_of core n s t h

end Sys2Proof.Machine
end

