-- ==== Sys2Proof/Tests/Slice0.lean ====
section
/-! SUPPORT. Our own tests: expected results from spec/ (the tables of 95_test_vectors.md, 41_configuration.md section 3,
40_gf_multiplier.md section 3, the examples of 30_encoding.md R80), and a witness of the hypotheses of every statement. -/

namespace Sys2Proof.Tests

open Sys2Proof Sys2Proof.Machine

/-! ### Helpers -/

/-- The state an answer goes on in (the reset state for a stop). -/
def after (r : Result) : State :=
  match r with
  | .next t => t
  | .fault _ => State.reset
  | .refused _ => State.reset

/-- The machine goes on. -/
def goesOn (r : Result) : Bool :=
  match r with
  | .next _ => true
  | .fault _ => false
  | .refused _ => false

/-- The STATUS register after an answer. -/
def statusAfter (r : Result) : Reg32 := statusReg (after r).block

/-- The CFG register after an answer. -/
def cfgAfter (r : Result) : Reg32 := cfgReg (after r).block

/-- The last outcome of an answer. -/
def lastOutcome (r : Result) : Option Response := (after r).outcomes.getLast?

/-- A state of the reset block with events at the port. -/
def atPort (es : List PortEvent) : State := { State.reset with pending := es }

/-- A 4-byte read. -/
def readAt (a : BitVec 10) : BusTxn := { we := false, size := 2, addr := a, wdata := 0 }

/-- A 4-byte write. -/
def writeAt (a : BitVec 10) (v : Reg32) : BusTxn := { we := true, size := 2, addr := a, wdata := v }

/-- After CONFIG 128 from reset. -/
def configured : State := after (exec (.config 128) State.reset)

/-- After CONFIG 256 from reset. -/
def configured256 : State := after (exec (.config 256) State.reset)

/-- After CONFIG 128 and EXPAND 16 from reset: a valid schedule. -/
def expanded : State := after (exec (.expand 16) configured)

/-- After CONFIG 100 from reset: the fatal lock. -/
def locked : State := after (exec (.config 100) State.reset)

/-- A state no run reaches: configured with a pair that no CONFIG writes. -/
def unpaired : State :=
  { State.reset with
    block := { State.reset.block with cfgValid := true, nk := 1, nr := 1 }
    pending := [.txn (cmdWriteTxn 0x00000402)] }

/-- A configured state with SCHED_VALID = 1 and the reset's zero words, for the reads of 20_memory.md R51. -/
def readable : State :=
  { configured with block := { configured.block with schedValid := true } }

/-! ### WellFormed refuses an operand out of its range (30_encoding.md R80) -/

theorem test_wellFormed_refuses_klen : (Instr.config 65536).wellFormed = false := by decide
theorem test_wellFormed_refuses_kbytes : (Instr.expand 256).wellFormed = false := by decide
theorem test_wellFormed_refuses_n : (Instr.mulx 0xFF 256).wellFormed = false := by decide
theorem test_wellFormed_accepts_the_bounds :
    (Instr.config 65535).wellFormed = true ∧ (Instr.expand 255).wellFormed = true ∧
      (Instr.mulx 0xFF 255).wellFormed = true := by decide
theorem test_encode_never_truncates :
    encode (.config 65536) = none ∧ encode (.expand 256) = none ∧ encode (.mulx 1 256) = none := by decide

/-! ### Decoding: words written out from the formats of 30_encoding.md R72 and the patterns of R78 -/

theorem test_decode_config : decode (.command 0b00000001000000000000000000000001) = .ok (.config 256) := by decide
theorem test_decode_expand : decode (.command 0b00000000000000000001100000000010) = .ok (.expand 24) := by decide
theorem test_decode_mulx : decode (.command 0b00000000111111111010101100000011) = .ok (.mulx 0xAB 255) := by decide
theorem test_decode_wrCmd :
    decode (.hostWrite 0b110000000000000000000100000000000000000000001) = .ok (.wrCmd 0x00800001) := by decide
theorem test_decode_wrKey :
    decode (.hostWrite 0b110000010110000000001000000110000010100000111) = .ok (.wrKey 3 0x01030507) := by decide
theorem test_decode_reads :
    decode (.hostRead 0b0100000000100) = .ok .rdStatus ∧ decode (.hostRead 0b0100000001000) = .ok .rdCfg ∧
      decode (.hostRead 0b0100000001100) = .ok .rdMulxRes := by decide
theorem test_decode_rdRk :
    decode (.hostRead 0b0100100000000) = .ok (.rdRk 0) ∧ decode (.hostRead 0b0100111101100) = .ok (.rdRk 59) := by
  decide
theorem test_decode_rdRk_60_is_unmapped : decode (.hostRead 0b0100111110000) = .error (.busError .unmapped) := by
  decide
theorem test_decode_reserved_bit : decode (.command 0x00800101) = .error (.illegalCommand .reservedBit) := by decide
theorem test_decode_bad_opcode :
    decode (.command 0x00000000) = .error (.illegalCommand .badOpcode) ∧
      decode (.command 0x00000004) = .error (.illegalCommand .badOpcode) ∧
      decode (.command 0x0000000F) = .error (.illegalCommand .badOpcode) := by decide
theorem test_decode_wrong_pattern :
    decode (.hostWrite 0b010000000010000000000000000000000000000000000) = .error .readWithData ∧
      decode (.hostRead 0b1100000000000) = .error .writeWithoutData := by decide

/-- The match values of spec/opcode_table.json. -/
theorem test_decodeTableWord :
    decodeTableWord 32 0x00000001 = some (.config 0) ∧ decodeTableWord 32 0x00000002 = some (.expand 0) ∧
      decodeTableWord 32 0x00000003 = some (.mulx 0 0) ∧ decodeTableWord 48 0x180000000000 = some (.wrCmd 0) ∧
      decodeTableWord 48 0x182000000000 = some (.wrKey 0 0) ∧ decodeTableWord 16 0x0804 = some .rdStatus ∧
      decodeTableWord 16 0x0808 = some .rdCfg ∧ decodeTableWord 16 0x080C = some .rdMulxRes ∧
      decodeTableWord 16 0x0900 = some (.rdRk 0) := by decide

/-- The examples of 30_encoding.md R80. -/
theorem test_encode_examples :
    encode (.config 128) = some (.command 0x00800001) ∧ encode (.config 192) = some (.command 0x00C00001) ∧
      encode (.config 256) = some (.command 0x01000001) ∧ encode (.expand 16) = some (.command 0x00001002) ∧
      encode (.expand 24) = some (.command 0x00001802) ∧ encode (.expand 32) = some (.command 0x00002002) ∧
      encode (.mulx 0x80 1) = some (.command 0x00018003) := by decide

theorem test_windowOffset_low_10_bits : windowOffset 0x40000104 = 0x104 := by decide

/-! ### Meanings -/

/-- 41_configuration.md section 3. -/
theorem test_config_192 :
    cfgAfter (exec (.config 192) State.reset) = 0x00340C64 ∧
      statusAfter (exec (.config 192) State.reset) = 0x00000001 := by decide
/-- 41_configuration.md section 3. -/
theorem test_config_100 :
    cfgAfter (exec (.config 100) State.reset) = 0x00000004 ∧
      statusAfter (exec (.config 100) State.reset) = 0x00000014 := by decide
/-- 60_exceptions.md R152: NOT_CONFIGURED before KEYLEN_MISMATCH; 42_key_expansion.md R129: SCHED_VALID and NONE. -/
theorem test_expand_status :
    statusAfter (exec (.expand 99) State.reset) = 0x00000020 ∧
      statusAfter (exec (.expand 16) configured) = 0x00000003 := by decide
/-- 40_gf_multiplier.md section 3. -/
theorem test_mulx_reduces : (after (exec (.mulx 0x80 1) State.reset)).block.mulxRes = 0x1B := by decide
/-- 40_gf_multiplier.md section 3. -/
theorem test_mulx_four_times : (after (exec (.mulx 0x57 4) State.reset)).block.mulxRes = 0x07 := by decide
/-- 41_configuration.md section 3. -/
theorem test_wrCmd_reserved_bit : statusAfter (exec (.wrCmd 0x00800101) State.reset) = 0x00000040 := by decide
/-- 41_configuration.md section 3. -/
theorem test_wrCmd_under_lock : statusAfter (exec (.wrCmd 0x00800001) locked) = 0x00000054 := by decide
/-- 20_memory.md R53: byte 0 from bits 31..24. -/
theorem test_wrKey_packing :
    (after (exec (.wrKey 7 0x2B7E1516) State.reset)).block.key[7] = ⟨0x2B, 0x7E, 0x15, 0x16⟩ := by decide
/-- 20_memory.md R50: legal under the fatal lock. -/
theorem test_wrKey_under_lock :
    (after (exec (.wrKey 0 0x00010203) locked)).block.key[0] = ⟨0, 1, 2, 3⟩ := by decide
/-- 70_reset_and_hazards.md R171. -/
theorem test_rdStatus_after_reset : lastOutcome (exec .rdStatus State.reset) = some (.readData 0) := by decide
/-- 70_reset_and_hazards.md R171. -/
theorem test_rdCfg_after_reset : lastOutcome (exec .rdCfg State.reset) = some (.readData 4) := by decide
/-- 40_gf_multiplier.md section 3: 0x7F doubled. -/
theorem test_rdMulxRes : lastOutcome (exec .rdMulxRes (after (exec (.mulx 0x7F 1) State.reset))) =
    some (.readData 0x000000FE) := by decide
/-- 20_memory.md R51: the last word below NWORDS, and the first beyond. -/
theorem test_rdRk_range :
    lastOutcome (exec (.rdRk 43) readable) = some (.readData 0) ∧
      lastOutcome (exec (.rdRk 44) readable) = some (.busError .rkRange) := by decide
/-- 42_key_expansion.md R129's worked example, with the reference S-box. -/
theorem test_expand_zero_key :
    pack (blockSchedule fipsSbox configured.block)[4] = 0x62636363 ∧
      pack (blockSchedule fipsSbox configured.block)[5] = 0x62636363 := by decide
/-- 60_exceptions.md R157: SIZE before ALIGN. -/
theorem test_step_size_before_align :
    lastOutcome (step (atPort [.txn { we := true, size := 0, addr := 0x3FF, wdata := 0 }])) =
      some (.busError .size) := by decide
/-- 70_reset_and_hazards.md R170: under reset nothing is acknowledged. -/
theorem test_step_under_reset :
    (after (step { atPort [.txn (cmdWriteTxn 0x00800001)] with rst := true })).outcomes = [] := by decide

/-! ### Witnesses: for every statement with hypotheses, states and operands that meet them, each clause at a boundary -/

theorem witness_EncodedInstructionsDecodeBack :
    (Instr.config 65535).wellFormed = true ∧ (Instr.rdRk 59).wellFormed = true := by decide
theorem witness_DecodedPatternsEncodeBack :
    decode (.command 0xFFFF0001) = .ok (.config 65535) ∧
      decode (.hostWrite 0b110000011110011111111111111111111111111111111) = .ok (.wrKey 7 0xFFFFFFFF) ∧
      decode (.hostRead 0b0100111101100) = .ok (.rdRk 59) := by decide
theorem witness_CommandSelectedByMaskAndMatch :
    decodeCommand 0xFFFF0001 = .ok (.config 65535) ∧ decodeCommand 0x0000FF02 = .ok (.expand 255) ∧
      decodeCommand 0x00FFFF03 = .ok (.mulx 0xFF 255) := by decide
theorem witness_CommandOperandsArePlainFields_config : decodeCommand 0xFFFF0001 = .ok (.config 65535) := by decide
theorem witness_CommandOperandsArePlainFields_expand : decodeCommand 0x0000FF02 = .ok (.expand 255) := by decide
theorem witness_CommandOperandsArePlainFields_mulx : decodeCommand 0x00FF8003 = .ok (.mulx 0x80 255) := by decide
theorem witness_AdmittedTransactionForms :
    decodeTxn (writeAt 0x000 7) = .ok (.wrCmd 7) ∧ decodeTxn (writeAt 0x03C 7) = .ok (.wrKey 7 7) ∧
      decodeTxn (readAt 0x004) = .ok .rdStatus ∧ decodeTxn (readAt 0x008) = .ok .rdCfg ∧
      decodeTxn (readAt 0x00C) = .ok .rdMulxRes ∧ decodeTxn (readAt 0x1EC) = .ok (.rdRk 59) := by decide
theorem witness_PseudoInstructionExpansions_loadkey_refused :
    ([] : List Reg32) = [] ∧ 8 < (List.replicate 9 (0 : Reg32)).length := by decide
theorem witness_PseudoInstructionExpansions_loadkey :
    List.replicate 8 (5 : Reg32) ≠ [] ∧ (List.replicate 8 (5 : Reg32)).length ≤ 8 ∧
      (List.replicate 8 (5 : Reg32))[(7 : Fin 8).val]? = some 5 := by decide
theorem witness_PseudoInstructionExpansions_mulx_refused : 256 ≤ 256 := by decide

theorem witness_StepRunsDecodedTransaction :
    (atPort [.txn (readAt 0x1EC)]).pending = .txn (readAt 0x1EC) :: [] ∧
      (atPort [.txn (readAt 0x1EC)]).rst = false ∧ decodeTxn (readAt 0x1EC) = .ok (.rdRk 59) := by decide
theorem witness_StepRunsCarriedCommand :
    (atPort [.txn (cmdWriteTxn 0x00FF8003)]).pending = .txn (cmdWriteTxn 0x00FF8003) :: [] ∧
      (atPort [.txn (cmdWriteTxn 0x00FF8003)]).rst = false ∧
      decodeCommand 0x00FF8003 = .ok (.mulx 0x80 255) := by decide
theorem witness_PresentedWordRunsNext :
    decodeTableWord 48 0x182000000001 = some (.wrKey 0 1) ∧ decodeTableWord 13 0x0900 = some (.rdRk 0) ∧
      decodeTableWord 32 0x00800001 = some (.config 128) := by decide
theorem witness_IdleStepKeepsState : State.reset.pending = [] := by decide

theorem reset_configInv : ConfigInv State.reset.block := .inr (by decide)
theorem configured_configInv : ConfigInv configured.block := .inl (by decide)
theorem configured256_configInv : ConfigInv configured256.block := .inl (by decide)

theorem witness_EveryStepCompletes : ConfigInv State.reset.block := reset_configInv
theorem witness_EachTransactionEndsOnce :
    ConfigInv (atPort [.txn (readAt 0x004)]).block ∧
      (atPort [.txn (readAt 0x004)]).pending = .txn (readAt 0x004) :: [] ∧
      (atPort [.txn (readAt 0x004)]).rst = false := ⟨reset_configInv, rfl, rfl⟩
theorem witness_OnlyUnconfiguredPairStops :
    unpaired.rst = false ∧ unpaired.block.fatal = false ∧ unpaired.block.cfgValid = true ∧
      configuredPair unpaired.block.nk unpaired.block.nr = false ∧
      unpaired.pending = .txn (cmdWriteTxn 0x00000402) :: [] ∧ decodeCommand 0x00000402 = .ok (.expand 4) ∧
      4 = 4 * unpaired.block.nk.toNat := by decide

theorem witness_BusErrorCauseAndPriority_premises :
    (atPort [.txn (readAt 0x010)]).pending = .txn (readAt 0x010) :: [] ∧
      (atPort [.txn (readAt 0x010)]).rst = false := by decide
theorem witness_BusErrorCauseAndPriority_size :
    (BusTxn.mk true 3 0x000 0).size ≠ 2 ∧ (BusTxn.mk false 1 0x004 0).size ≠ 2 := by decide
theorem witness_BusErrorCauseAndPriority_align :
    (readAt 0x3FF).size = 2 ∧ (readAt 0x3FF).addr.toNat % 4 ≠ 0 ∧ (readAt 0x001).addr.toNat % 4 ≠ 0 := by decide
theorem witness_BusErrorCauseAndPriority_unmapped :
    ∀ a ∈ [(0x010 : BitVec 10), 0x01C, 0x040, 0x0FC, 0x1F0, 0x3FC],
      (readAt a).size = 2 ∧ (readAt a).addr.toNat % 4 = 0 ∧
        ¬((readAt a).addr.toNat < 0x010 ∨ (0x020 ≤ (readAt a).addr.toNat ∧ (readAt a).addr.toNat ≤ 0x03C) ∨
          (0x100 ≤ (readAt a).addr.toNat ∧ (readAt a).addr.toNat ≤ 0x1EC)) := by
  simp only [List.forall_mem_cons, List.not_mem_nil, false_implies, implies_true, and_true]
  decide
theorem witness_BusErrorCauseAndPriority_write_of_RO :
    ∀ a ∈ [(0x004 : BitVec 10), 0x00C, 0x100, 0x1EC],
      (writeAt a 0).size = 2 ∧ (writeAt a 0).addr.toNat % 4 = 0 ∧ (writeAt a 0).we = true ∧
        ((0x004 ≤ (writeAt a 0).addr.toNat ∧ (writeAt a 0).addr.toNat ≤ 0x00C) ∨
          (0x100 ≤ (writeAt a 0).addr.toNat ∧ (writeAt a 0).addr.toNat ≤ 0x1EC)) := by
  simp only [List.forall_mem_cons, List.not_mem_nil, false_implies, implies_true, and_true]
  decide
theorem witness_BusErrorCauseAndPriority_read_of_WO :
    ∀ a ∈ [(0x000 : BitVec 10), 0x020, 0x03C],
      (readAt a).size = 2 ∧ (readAt a).addr.toNat % 4 = 0 ∧ (readAt a).we = false ∧
        ((readAt a).addr.toNat = 0x000 ∨
          (0x020 ≤ (readAt a).addr.toNat ∧ (readAt a).addr.toNat ≤ 0x03C)) := by
  simp only [List.forall_mem_cons, List.not_mem_nil, false_implies, implies_true, and_true]
  decide
theorem witness_BusErrorCauseAndPriority_rkInvalid :
    (readAt 0x1EC).size = 2 ∧ (readAt 0x1EC).we = false ∧
      (readAt 0x1EC).addr.toNat = 0x100 + 4 * (59 : Fin 60).val ∧
      State.reset.block.schedValid = false := by decide
theorem witness_BusErrorCauseAndPriority_rkRange :
    (readAt 0x1B0).addr.toNat = 0x100 + 4 * (44 : Fin 60).val ∧ expanded.block.schedValid = true ∧
      nwords expanded.block ≤ (44 : Fin 60).val := by decide
theorem witness_BusErrorChangesNoState :
    goesOn (step (atPort [.txn (readAt 0x010)])) = true ∧
      (after (step (atPort [.txn (readAt 0x010)]))).outcomes =
        (atPort [.txn (readAt 0x010)]).outcomes ++ [.busError .unmapped] := by decide

theorem witness_CfgReadLayout_unconfigured : State.reset.block.cfgValid = false := by decide
theorem witness_CfgReadLayout_configured :
    configured256.block.cfgValid = true ∧ configured256.block.nr ≠ 15 := by decide
theorem witness_CfgValueAfterConfig : configured.block.fatal = false := by decide
theorem witness_RoundKeyRead_invalid : State.reset.block.schedValid = false := by decide
theorem witness_RoundKeyRead_range :
    expanded.block.schedValid = true ∧ nwords expanded.block ≤ (44 : Fin 60).val := by decide
theorem witness_RoundKeyRead_data :
    expanded.block.schedValid = true ∧ (43 : Fin 60).val < nwords expanded.block := by decide

theorem witness_ResetValues :
    (atPort [.rstRise (some (cmdWriteTxn 0x00800001))]).pending =
      .rstRise (some (cmdWriteTxn 0x00800001)) :: [] := by decide
theorem witness_NothingAcceptedUnderReset_txn :
    ({ atPort [.txn (readAt 0x004)] with rst := true }).pending = .txn (readAt 0x004) :: [] ∧
      ({ atPort [.txn (readAt 0x004)] with rst := true }).rst = true := by decide
theorem witness_NothingAcceptedUnderReset_fall : (atPort [.rstFall]).pending = .rstFall :: [] := by decide

theorem witness_ConfigSetsKeyLength_supported :
    State.reset.block.fatal = false ∧
      (256, ((8 : BitVec 4), (14 : BitVec 4))) ∈
        [(128, ((4 : BitVec 4), (10 : BitVec 4))), (192, (6, 12)), (256, (8, 14))] := by decide
theorem witness_ConfigSetsKeyLength_unsupported :
    ∀ klen ∈ [0, 127, 129, 255, 257, 65535], klen ≠ 128 ∧ klen ≠ 192 ∧ klen ≠ 256 := by
  simp only [List.forall_mem_cons, List.not_mem_nil, false_implies, implies_true, and_true]
  decide
theorem witness_BadKeyLengthLocksUntilReset :
    let s := atPort ([0x00800001, 0x00000000].map fun v => .txn (cmdWriteTxn v))
    s.block.fatal = false ∧ s.rst = false ∧ 0 ≠ 128 ∧ 0 ≠ 192 ∧ 0 ≠ 256 ∧
      goesOn (exec (.config 0) s) = true ∧
      (after (exec (.config 0) s)).pending =
        ([0x00800001, 0x00000000] : List Reg32).map (fun v => .txn (cmdWriteTxn v)) ∧
      ([0x00800001, 0x00000000] : List Reg32) ≠ [] := by decide
theorem locked_lockInv : LockInv locked.block := fun _ => by decide
theorem witness_BehaviourUnderTheLock : locked.block.fatal = true ∧ LockInv locked.block :=
  ⟨by decide, locked_lockInv⟩
theorem witness_BehaviourUnderTheLock_left :
    let s := { locked with pending := [.rstRise none] }
    s.block.fatal = true ∧ LockInv s.block ∧ goesOn (step s) = true ∧
      (after (step s)).block.fatal = false := ⟨by decide, locked_lockInv, by decide, by decide⟩
theorem witness_FatalSetAndClearedOnlyBy_set :
    let s := atPort [.txn (cmdWriteTxn 0x00640001)]
    goesOn (step s) = true ∧ s.block.fatal = false ∧ (after (step s)).block.fatal = true := by decide
theorem witness_FatalSetAndClearedOnlyBy_cleared :
    let s := { locked with pending := [.rstRise none] }
    goesOn (step s) = true ∧ s.block.fatal = true ∧ (after (step s)).block.fatal = false := by decide

theorem witness_CmdWritePerformsItsCommand_locked : locked.block.fatal = true := by decide
theorem witness_CmdWritePerformsItsCommand_illegal :
    State.reset.block.fatal = false ∧ decodeCommand 0x00000011 = .error .reservedBit := by decide
theorem witness_CmdWritePerformsItsCommand_decoded : decodeCommand 0x0000FF02 = .ok (.expand 255) := by decide
theorem witness_CmdWritePerformsItsCommand_completes : ConfigInv configured256.block := configured256_configInv
theorem witness_IllegalWordsHaveNoOtherEffect :
    State.reset.block.fatal = false ∧
      ∀ v ∈ [(0x00000000 : Reg32), 0x00000004, 0x0000000F], v.toNat % 16 = 0 ∨ 4 ≤ v.toNat % 16 := by
  simp only [List.forall_mem_cons, List.not_mem_nil, false_implies, implies_true, and_true]
  decide
theorem witness_IllegalWordsHaveNoOtherEffect_config :
    ∀ v ∈ [(0x00800011 : Reg32), 0x00808001], v.toNat % 16 = 1 ∧ v.toNat / 16 % 4096 ≠ 0 := by
  simp only [List.forall_mem_cons, List.not_mem_nil, false_implies, implies_true, and_true]
  decide
theorem witness_IllegalWordsHaveNoOtherEffect_expand :
    ∀ v ∈ [(0x00011002 : Reg32), 0x80001002, 0x00001012],
      v.toNat % 16 = 2 ∧ (v.toNat / 65536 ≠ 0 ∨ v.toNat / 16 % 16 ≠ 0) := by
  simp only [List.forall_mem_cons, List.not_mem_nil, false_implies, implies_true, and_true]
  decide
theorem witness_IllegalWordsHaveNoOtherEffect_mulx :
    ∀ v ∈ [(0x01018003 : Reg32), 0x80018003, 0x00018083],
      v.toNat % 16 = 3 ∧ (v.toNat / 16777216 ≠ 0 ∨ v.toNat / 16 % 16 ≠ 0) := by
  simp only [List.forall_mem_cons, List.not_mem_nil, false_implies, implies_true, and_true]
  decide

/-- A step on a transaction in a state with `rst` low: the premises of the statements on every transaction. -/
theorem witness_ErrAfterEachTransaction_other :
    let s := atPort [.txn (readAt 0x004)]
    s.pending = .txn (readAt 0x004) :: [] ∧ s.rst = false ∧ goesOn (step s) = true ∧
      decodeTxn (readAt 0x004) = .ok .rdStatus := by decide
theorem witness_ErrAfterEachTransaction_locked :
    let s := { locked with pending := [.txn (cmdWriteTxn 0x00000000)] }
    s.rst = false ∧ goesOn (step s) = true ∧
      decodeTxn (cmdWriteTxn 0x00000000) = .ok (.wrCmd 0x00000000) ∧ s.block.fatal = true := by decide
theorem witness_ErrAfterEachTransaction_unlocked :
    ∀ v ∈ [(0x00000000 : Reg32), 0x00800001, 0x00640001, 0x00001002, 0x00FF8003],
      let s := { configured with pending := [.txn (cmdWriteTxn v)] }
      s.rst = false ∧ goesOn (step s) = true ∧ decodeTxn (cmdWriteTxn v) = .ok (.wrCmd v) ∧
        s.block.fatal = false := by
  simp only [List.forall_mem_cons, List.not_mem_nil, false_implies, implies_true, and_true]
  decide
theorem witness_ErrAfterEachTransaction_words :
    decodeCommand 0x00000000 = .error .badOpcode ∧ decodeCommand 0x00800001 = .ok (.config 128) ∧
      decodeCommand 0x00001002 = .ok (.expand 16) ∧ decodeCommand 0x00FF8003 = .ok (.mulx 0x80 255) := by decide
theorem witness_FailureWritesOnlyItsList_locked :
    goesOn (exec (.wrCmd 0) locked) = true ∧ (after (exec (.wrCmd 0) locked)).block.err = .locked := by decide
theorem witness_FailureWritesOnlyItsList_illegal :
    goesOn (exec (.wrCmd 0) configured) = true ∧
      (after (exec (.wrCmd 0) configured)).block.err = .illegalCmd := by decide
theorem witness_FailureWritesOnlyItsList_badKeylen :
    goesOn (exec (.wrCmd 0x00640001) configured) = true ∧
      (after (exec (.wrCmd 0x00640001) configured)).block.err = .badKeylen := by decide
theorem witness_FailureWritesOnlyItsList_notConfigured :
    goesOn (exec (.wrCmd 0x00001002) State.reset) = true ∧
      (after (exec (.wrCmd 0x00001002) State.reset)).block.err = .notConfigured := by decide
theorem witness_FailureWritesOnlyItsList_keylenMismatch :
    goesOn (exec (.wrCmd 0x00001102) configured) = true ∧
      (after (exec (.wrCmd 0x00001102) configured)).block.err = .keylenMismatch := by decide

/-- The premises are those of the codes' statement, in a state with a valid schedule. -/
theorem witness_SchedValidAfterEachTransaction :
    ∀ v ∈ [(0x00000000 : Reg32), 0x00800001, 0x00640001, 0x00001102, 0x00018003],
      let s := { expanded with pending := [.txn (cmdWriteTxn v)] }
      s.rst = false ∧ goesOn (step s) = true ∧ decodeTxn (cmdWriteTxn v) = .ok (.wrCmd v) ∧
        s.block.fatal = false ∧ s.block.schedValid = true := by
  simp only [List.forall_mem_cons, List.not_mem_nil, false_implies, implies_true, and_true]
  decide
theorem witness_SchedValidAfterEachTransaction_set :
    let s := { configured with pending := [.txn (cmdWriteTxn 0x00001002)] }
    s.block.cfgValid = true ∧ 16 = 4 * s.block.nk.toNat ∧ goesOn (step s) = true ∧
      (after (step s)).block.schedValid = true := by decide
theorem witness_KeyLatchesWrittenOnlyByHost :
    let s := atPort [.txn (writeAt 0x03C 0x01020304)]
    s.pending = .txn (writeAt 0x03C 0x01020304) :: [] ∧ goesOn (step s) = true ∧
      (after (step s)).block.key ≠ s.block.key := by decide
theorem witness_ScheduleWrittenOnlyByExpand :
    let s := { configured with pending := [.txn (cmdWriteTxn 0x00001002)] }
    s.pending = .txn (cmdWriteTxn 0x00001002) :: [] ∧ goesOn (step s) = true := by decide
theorem witness_MulxResWrittenOnlyByMulx :
    let s := atPort [.txn (cmdWriteTxn 0x00018003)]
    s.pending = .txn (cmdWriteTxn 0x00018003) :: [] ∧ goesOn (step s) = true ∧
      (after (step s)).block.mulxRes ≠ s.block.mulxRes := by decide
theorem witness_ConfigurationWrittenOnlyByConfig :
    let s := atPort [.txn (cmdWriteTxn 0x01000001)]
    s.pending = .txn (cmdWriteTxn 0x01000001) :: [] ∧ goesOn (step s) = true ∧
      (after (step s)).block.nk ≠ s.block.nk := by decide

theorem witness_MulxResult : State.reset.block.fatal = false := by decide
theorem witness_MultiplierLaws : (0xFF : Byte) ≠ 0 ∧ 1 ≤ 50 ∧ 50 ≤ 50 := by decide
theorem witness_MulxGivesTheRoundConstant : 1 ≤ 255 ∧ 255 ≤ 255 ∧ State.reset.block.fatal = false := by decide

theorem witness_ExpandWritesTheSchedule :
    configured.block.fatal = false ∧ configured.block.cfgValid = true ∧ configured.block.nk = 4 ∧
      configured.block.nr = 10 ∧ 16 = 4 * configured.block.nk.toNat := by decide
theorem witness_ExpandWritesTheSchedule_256 :
    configured256.block.fatal = false ∧ configured256.block.cfgValid = true ∧ configured256.block.nk = 8 ∧
      configured256.block.nr = 14 ∧ 32 = 4 * configured256.block.nk.toNat := by decide
theorem witness_ExpandFailures_notConfigured :
    State.reset.block.fatal = false ∧ State.reset.block.cfgValid = false := by decide
theorem witness_ExpandFailures_keylenMismatch :
    configured.block.fatal = false ∧ configured.block.cfgValid = true ∧
      17 ≠ 4 * configured.block.nk.toNat := by decide
theorem witness_ScheduleFollowsTheRecurrence_seed :
    (8, 14) ∈ [(4, 10), (6, 12), (8, 14)] ∧ (7 : Fin 8).val < 8 := by decide
theorem witness_ScheduleFollowsTheRecurrence_round :
    8 ≤ (56 : Fin 60).val ∧ (56 : Fin 60).val < 4 * (14 + 1) ∧ (56 : Fin 60).val % 8 = 0 := by decide
theorem witness_ScheduleFollowsTheRecurrence_substitution :
    8 ≤ (12 : Fin 60).val ∧ (12 : Fin 60).val < 4 * (14 + 1) ∧ 6 < 8 ∧ (12 : Fin 60).val % 8 = 4 := by decide
theorem witness_ScheduleFollowsTheRecurrence_neither :
    6 ≤ (51 : Fin 60).val ∧ (51 : Fin 60).val < 4 * (12 + 1) ∧ (51 : Fin 60).val % 6 ≠ 0 ∧
      ¬(6 < 6 ∧ (51 : Fin 60).val % 6 = 4) := by decide
theorem witness_ScheduleFollowsTheRecurrence_tail : 4 * (10 + 1) ≤ (44 : Fin 60).val := by decide
theorem witness_WorkingWordIsPreviousWord :
    (6, 12) ∈ [(4, 10), (6, 12), (8, 14)] ∧ 46 ≤ 4 * (12 + 1) - 6 := by decide
theorem witness_SeedWordsEqualTheKey :
    ConfigInv configured256.block ∧ goesOn (exec (.expand 32) configured256) = true ∧
      (after (exec (.expand 32) configured256)).block.err = .none ∧
      (7 : Fin 8).val < configured256.block.nk.toNat :=
  ⟨configured256_configInv, by decide, by decide, by decide⟩
/-- The second state differs in latch 4, which a 128-bit EXPAND does not read. -/
theorem witness_ExpandDependsOnlyOnActiveKey :
    let u := after (exec (.wrKey 4 0xFFFFFFFF) configured)
    configured.block.nk = u.block.nk ∧ configured.block.nr = u.block.nr ∧
      (∀ i : Fin 8, i.val < configured.block.nk.toNat → configured.block.key[i.val] = u.block.key[i.val]) ∧
      goesOn (exec (.expand 16) configured) = true ∧ goesOn (exec (.expand 16) u) = true ∧
      (after (exec (.expand 16) configured)).block.err = .none ∧
      (after (exec (.expand 16) u)).block.err = .none := by decide
theorem witness_BranchPositions :
    (4 ≤ 43 ∧ 43 < 44) ∧ (6 ≤ 6 ∧ 6 < 52) ∧ (8 ≤ 59 ∧ 59 < 60) := by decide
theorem witness_KeyWriteSetsItsLatch : (7 : Fin 8) ≠ 0 := by decide
theorem witness_RepeatedAccesses_read : ∃ w : Fin 60, Instr.rdRk 59 = .rdRk w := ⟨59, rfl⟩
theorem witness_RepeatedAccesses_key : goesOn (exec (.wrKey 7 0x01020304) State.reset) = true := by decide
theorem witness_RepeatedAccesses_config :
    State.reset.block.fatal = false ∧ goesOn (exec (.config 100) State.reset) = true ∧
      100 ≠ 128 ∧ 100 ≠ 192 ∧ 100 ≠ 256 := by decide
theorem witness_RepeatedAccesses_expand :
    goesOn (exec (.expand 16) configured) = true ∧
      (after (exec (.expand 16) configured)).block.err = .none := by decide
theorem witness_StaleKeyReadsPreviousSchedule :
    goesOn (exec (.wrKey 0 0xFFFFFFFF) expanded) = true ∧ expanded.block.schedValid = true ∧
      (43 : Fin 60).val < nwords expanded.block := by decide

theorem reset_blockInv : BlockInv State.reset.block :=
  ⟨reset_configInv, fun h => absurd h (by decide), fun h => absurd h (by decide), fun h => absurd h (by decide)⟩
theorem witness_ConfigurationInvariantKept :
    ConfigInv configured.block ∧ goesOn (step configured) = true ∧ configured.block.cfgValid = true :=
  ⟨configured_configInv, by decide, by decide⟩
theorem witness_BlockInvariantKept : BlockInv State.reset.block ∧ goesOn (step State.reset) = true :=
  ⟨reset_blockInv, by decide⟩
/-- Also in a state with a valid schedule. -/
theorem witness_BlockInvariantKept_valid_schedule :
    BlockInv expanded.block ∧ expanded.block.schedValid = true ∧ goesOn (step expanded) = true :=
  ⟨⟨.inl (by decide), fun h => absurd h (by decide), fun _ => ⟨by decide, by decide⟩,
    fun _ => ⟨configured.block.key, fun _ _ => rfl⟩⟩, by decide, by decide⟩
/-- A read of STATUS in two states that differ in latch 0. -/
theorem witness_KeyLatchesAreNotReadable :
    let s := { expanded with pending := [.txn (readAt 0x004)] }
    let u := { s with block := { s.block with key := s.block.key.set 0 ⟨1, 2, 3, 4⟩ } }
    SameButKeys s u ∧ s.block.key ≠ u.block.key ∧ ¬PresentsExpand s ∧ goesOn (step s) = true := by
  refine ⟨rfl, by decide, ?_, by decide⟩
  rintro ⟨v, rest, kbytes, h, -⟩
  exact absurd (congrArg (fun l => l.head?) h) (by simp [readAt, cmdWriteTxn])
theorem witness_HiddenElementsAreNotObservable :
    let s := { configured with pending := [.txn (cmdWriteTxn 0x00001002), .txn (readAt 0x1AC)] }
    let u := { s with block := { s.block with w := ⟨1, 2, 3, 4⟩, word := 5 } }
    SameButHidden s u ∧ s.block.word ≠ u.block.word ∧
      ∃ t, Host.Core.run core 2 s = .next t := by
  refine ⟨rfl, by decide, _, rfl⟩

end Sys2Proof.Tests
end

section
/-! PROOFS. What a command and a step can do to each element of the block, once. -/

namespace Sys2Proof.Machine

/-- The key lengths outside the table (41_configuration.md R110). -/
theorem keyParams_eq_none_iff (klen : Nat) :
    keyParams klen = none ↔ klen ≠ 128 ∧ klen ≠ 192 ∧ klen ≠ 256 := by
  unfold keyParams
  split_ifs <;> simp_all

/-- The pairs the table holds. -/
theorem configuredPair_of_keyParams {klen : Nat} {p : BitVec 4 × BitVec 4} (h : keyParams klen = some p) :
    configuredPair p.1 p.2 = true := by
  unfold keyParams at h
  split_ifs at h <;> cases h <;> rfl

/-- CONFIG with a length of the table. -/
theorem configBlock_of_some {klen : Nat} {p : BitVec 4 × BitVec 4} (b : Block) (h : keyParams klen = some p) :
    configBlock klen b =
      { b with nk := p.1, nr := p.2, cfgValid := true, schedValid := false, err := .none } := by
  simp only [configBlock, h]

/-- CONFIG with any other length. -/
theorem configBlock_of_none {klen : Nat} (b : Block) (h : keyParams klen = none) :
    configBlock klen b = fatalConfig b := by
  simp only [configBlock, h]

@[simp] theorem configBlock_schedValid (klen : Nat) (b : Block) : (configBlock klen b).schedValid = false := by
  unfold configBlock; split <;> rfl
@[simp] theorem configBlock_key (klen : Nat) (b : Block) : (configBlock klen b).key = b.key := by
  unfold configBlock; split <;> rfl
@[simp] theorem configBlock_rk (klen : Nat) (b : Block) : (configBlock klen b).rk = b.rk := by
  unfold configBlock; split <;> rfl
@[simp] theorem configBlock_mulxRes (klen : Nat) (b : Block) : (configBlock klen b).mulxRes = b.mulxRes := by
  unfold configBlock; split <;> rfl

namespace CmdEffect

variable {v : Reg32} {s t : State}

/-- No command writes the key latches (10_state.md R31). -/
theorem key_eq (h : CmdEffect v s t) : t.block.key = s.block.key := by
  cases h <;> simp

/-- Only CONFIG with an unsupported length writes FATAL (10_state.md R28). -/
theorem fatal_cases (h : CmdEffect v s t) : t.block.fatal = s.block.fatal ∨
    t.block.fatal = true ∧ ∃ klen, decodeCommand v = .ok (.config klen) ∧ keyParams klen = none := by
  cases h with
  | config klen hf hd =>
    cases hp : keyParams klen with
    | none => exact .inr ⟨by simp [configBlock_of_none _ hp, fatalConfig], klen, hd, hp⟩
    | some p => exact .inl (by simp [configBlock_of_some _ hp])
  | _ => exact .inl (by simp)

/-- Only an unlocked CONFIG writes the configuration (10_state.md R22 to R24). -/
theorem configuration_cases (h : CmdEffect v s t) :
    (t.block.cfgValid = s.block.cfgValid ∧ t.block.nk = s.block.nk ∧ t.block.nr = s.block.nr) ∨
      ∃ klen, decodeCommand v = .ok (.config klen) ∧ s.block.fatal = false := by
  cases h with
  | config klen hf hd => exact .inr ⟨klen, hd, hf⟩
  | _ => exact .inl (by simp)

/-- Only a successful EXPAND writes the schedule storage (10_state.md R32). -/
theorem rk_cases (h : CmdEffect v s t) : t.block.rk = s.block.rk ∨
    ∃ kbytes, decodeCommand v = .ok (.expand kbytes) ∧ t.block.err = .none ∧ t.block.schedValid = true ∧
      t.block.rk = blockSchedule Config.SBOX s.block := by
  cases h with
  | expanded kbytes hf hd hc hk hp => exact .inr ⟨kbytes, hd, by simp⟩
  | _ => exact .inl (by simp)

/-- Only an unlocked MULX writes MULX_RES (10_state.md R33). -/
theorem mulxRes_cases (h : CmdEffect v s t) : t.block.mulxRes = s.block.mulxRes ∨
    ∃ b n, decodeCommand v = .ok (.mulx b n) ∧ s.block.fatal = false ∧ t.block.err = .none ∧
      t.block.mulxRes = multByX b n := by
  cases h with
  | mulx b n hf hd => exact .inr ⟨b, n, hd, hf, rfl, rfl⟩
  | _ => exact .inl (by simp)

/-- Under the lock a command leaves SCHED_VALID. -/
theorem schedValid_of_locked (h : CmdEffect v s t) (hl : s.block.fatal = true) :
    t.block.schedValid = s.block.schedValid := by
  cases h with
  | locked hf => simp
  | _ => simp_all

/-- An illegal word leaves SCHED_VALID. -/
theorem schedValid_of_illegal (h : CmdEffect v s t) {r : CommandReject} (hr : decodeCommand v = .error r) :
    t.block.schedValid = s.block.schedValid := by
  cases h with
  | locked hf => simp
  | illegal r' hf hd => simp
  | _ => simp_all

/-- CONFIG clears SCHED_VALID. -/
theorem schedValid_of_config (h : CmdEffect v s t) (hl : s.block.fatal = false) {klen : Nat}
    (hr : decodeCommand v = .ok (.config klen)) : t.block.schedValid = false := by
  cases h with
  | config klen' hf hd => simp
  | _ => simp_all

/-- EXPAND sets SCHED_VALID exactly when configured with its byte count (42_key_expansion.md R129). -/
theorem schedValid_iff_of_expand (h : CmdEffect v s t) (hl : s.block.fatal = false) {kbytes : Nat}
    (hr : decodeCommand v = .ok (.expand kbytes)) :
    t.block.schedValid = true ↔ s.block.cfgValid = true ∧ kbytes = 4 * s.block.nk.toNat := by
  cases h with
  | notConfigured kbytes' hf hd hc => simp [hc]
  | keylenMismatch kbytes' hf hd hc hk =>
    obtain rfl : kbytes' = kbytes := by simpa [hd] using hr
    simp [hk]
  | expanded kbytes' hf hd hc hk hp =>
    obtain rfl : kbytes' = kbytes := by simpa [hd] using hr
    simp [hc, hk]
  | _ => simp_all

/-- MULX leaves SCHED_VALID. -/
theorem schedValid_of_mulx (h : CmdEffect v s t) {b : Byte} {n : Nat}
    (hr : decodeCommand v = .ok (.mulx b n)) : t.block.schedValid = s.block.schedValid := by
  cases h with
  | locked hf => simp
  | mulx b' n' hf hd => simp
  | _ => simp_all

end CmdEffect

/-- Everything a transaction at the front of the port can do to the block. -/
inductive TxnEffect (q : BusTxn) (rest : List PortEvent) (s t : State) : Prop where
  | kept (hq : s.rst = true ∨ ∀ v, decodeTxn q ≠ .ok (.wrCmd v)) (hb : t.block = s.block)
  | keyWrite (k : Fin 8) (v : Reg32) (hr : s.rst = false) (hd : decodeTxn q = .ok (.wrKey k v))
      (hb : t.block = { s.block with key := s.block.key.set k.val (unpack v) })
  | command (v : Reg32) (hr : s.rst = false) (hd : decodeTxn q = .ok (.wrCmd v))
      (he : CmdEffect v { s with pending := rest } t)

/-- A step on a transaction did one of these. -/
theorem step_txn_cases {s t : State} {q : BusTxn} {rest : List PortEvent} (hp : s.pending = .txn q :: rest)
    (h : step s = .next t) : TxnEffect q rest s t := by
  cases hr : s.rst with
  | true =>
    rw [step_txn_rst hp hr] at h
    cases h
    exact .kept (.inl hr) rfl
  | false =>
    match hd : decodeTxn q with
    | .error c =>
      rw [step_txn_error hp hr hd] at h
      cases h
      exact .kept (.inr (by simp [hd])) rfl
    | .ok i =>
      rw [step_txn_ok hp hr hd] at h
      obtain ⟨v, rfl, -, he⟩ | ⟨k, v, rfl, -, rfl⟩ | ⟨-, hi, -, ⟨v, rfl⟩ | ⟨c, rfl⟩⟩ := exec_txn_cases hd h
      · exact .command v hr hd he
      · exact .keyWrite k v hr hd rfl
      · exact .kept (.inr fun v hv => hi v (by simpa [hd] using hv)) rfl
      · exact .kept (.inr fun v hv => hi v (by simpa [hd] using hv)) rfl

/-- A step on an admitted CMD write did what the command does. -/
theorem step_wrCmd_cases {s t : State} {q : BusTxn} {rest : List PortEvent} {v : Reg32}
    (hp : s.pending = .txn q :: rest) (hr : s.rst = false) (hd : decodeTxn q = .ok (.wrCmd v))
    (h : step s = .next t) : CmdEffect v { s with pending := rest } t := by
  rw [step_txn_ok hp hr hd] at h
  exact execWrCmd_cases h

/-- Everything a step can do to the block. -/
inductive BlockEffect (s t : State) : Prop where
  | kept (hb : t.block = s.block)
  | reset (p : Option BusTxn) (rest : List PortEvent) (a : Word) (c : BitVec 6)
      (hp : s.pending = .rstRise p :: rest) (hb : t.block = Block.atReset a c)
  | txn (q : BusTxn) (rest : List PortEvent) (hp : s.pending = .txn q :: rest) (he : TxnEffect q rest s t)

/-- A step did one of these to the block. -/
theorem step_block_cases {s t : State} (h : step s = .next t) : BlockEffect s t := by
  cases step_cases h with
  | idle hp => exact .kept rfl
  | rstRise p rest hp => exact .reset p rest _ _ hp rfl
  | rstFall rest hp => exact .kept rfl
  | underReset q rest hp hr => exact .txn q rest hp (step_txn_cases hp h)
  | busError q rest c hp hr hd => exact .txn q rest hp (step_txn_cases hp h)
  | run q rest i _ hp hr hd he => exact .txn q rest hp (step_txn_cases hp h)

/-- A property of blocks that holds after reset, and that KEY writes and commands keep, is kept by every step. -/
theorem step_keeps {P : Block → Prop} (hreset : ∀ a c, P (Block.atReset a c))
    (hkey : ∀ (b : Block) (key : Vector Word 8), P b → P { b with key := key })
    (hcmd : ∀ v (s t : State), CmdEffect v s t → P s.block → P t.block)
    {s t : State} (h : step s = .next t) (hs : P s.block) : P t.block := by
  cases step_block_cases h with
  | kept hb => exact hb ▸ hs
  | reset p rest a c hp hb => exact hb ▸ hreset a c
  | txn q rest hp he =>
    cases he with
    | kept hq hb => exact hb ▸ hs
    | keyWrite k v hr hd hb => exact hb ▸ hkey _ _ hs
    | command v hr hd he => exact hcmd v _ t he hs

end Sys2Proof.Machine
end

section
/-! PROOFS. The invariants of 10_state.md R27 and R35: each holds after reset and is kept by every command. -/

namespace Sys2Proof.Machine

theorem configInv_atReset (a : Word) (c : BitVec 6) : ConfigInv (Block.atReset a c) := .inr ⟨rfl, rfl, rfl⟩

/-- Everything R27 and R35 say holds after a reset, whatever `W` and `word` are. -/
theorem blockInv_atReset (a : Word) (c : BitVec 6) : BlockInv (Block.atReset a c) :=
  ⟨configInv_atReset a c, nofun, nofun, nofun⟩

/-- CONFIG establishes the configuration invariant, from any block. -/
theorem configInv_configBlock (klen : Nat) (b : Block) : ConfigInv (configBlock klen b) := by
  cases hp : keyParams klen with
  | none => exact .inr (by simp [configBlock_of_none _ hp, fatalConfig])
  | some p =>
    rw [configBlock_of_some _ hp]
    exact .inl ⟨rfl, of_decide_eq_true (configuredPair_of_keyParams hp)⟩

/-- A supported configuration has `NR = NK + 6` (10_state.md R27). -/
theorem ConfigInv.nr_eq {b : Block} (h : ConfigInv b) (hc : b.cfgValid = true) :
    b.nr.toNat = b.nk.toNat + 6 := by
  obtain ⟨-, ⟨hk, hr⟩ | ⟨hk, hr⟩ | ⟨hk, hr⟩⟩ | ⟨hf, -⟩ := h
  · rw [hk, hr]; rfl
  · rw [hk, hr]; rfl
  · rw [hk, hr]; rfl
  · simp [hf] at hc

namespace CmdEffect

variable {v : Reg32} {s t : State}

/-- Only CONFIG writes what the configuration invariant speaks of. -/
theorem configInv (h : CmdEffect v s t) (hs : ConfigInv s.block) : ConfigInv t.block := by
  cases h with
  | config klen hf hd => exact configInv_configBlock klen s.block
  | _ => exact hs

/-- Only a bad CONFIG enters the lock, and it invalidates what the lock excludes. -/
theorem lockInv (h : CmdEffect v s t) (hs : LockInv s.block) : LockInv t.block := by
  cases h with
  | locked hf => exact hs
  | config klen hf hd =>
    cases hp : keyParams klen with
    | none => exact fun _ => by simp [configBlock_of_none _ hp, fatalConfig]
    | some p => simp [LockInv, configBlock_of_some _ hp, hf]
  | _ => simp_all [LockInv]

/-- A schedule becomes valid with the zero tail that `keyExpansion` writes (42_key_expansion.md R128). -/
theorem tailInv (h : CmdEffect v s t) (hs : TailInv s.block) : TailInv t.block := by
  cases h with
  | locked hf | illegal r hf hd | mulx b n hf hd => exact hs
  | config klen hf hd => simp [TailInv]
  | notConfigured kbytes hf hd hc | keylenMismatch kbytes hf hd hc hk => simp [TailInv]
  | expanded kbytes hf hd hc hk hp =>
    refine fun _ => ⟨hc, fun w hw => ?_⟩
    have hw : scheduleWords s.block.nr.toNat ≤ w.val := by simpa [nwords, hc] using hw
    simp [blockSchedule, keyExpansion_get, hw]

/-- A schedule becomes valid as the expansion of the latches of that moment. -/
theorem scheduleInv (h : CmdEffect v s t) (hs : ScheduleInv s.block) : ScheduleInv t.block := by
  cases h with
  | locked hf | illegal r hf hd | mulx b n hf hd => exact hs
  | config klen hf hd => simp [ScheduleInv]
  | notConfigured kbytes hf hd hc | keylenMismatch kbytes hf hd hc hk => simp [ScheduleInv]
  | expanded kbytes hf hd hc hk hp => exact fun _ => ⟨s.block.key, fun w hw => rfl⟩

theorem blockInv (h : CmdEffect v s t) (hs : BlockInv s.block) : BlockInv t.block :=
  let ⟨hconfig, hlock, htail, hsched⟩ := hs
  ⟨h.configInv hconfig, h.lockInv hlock, h.tailInv htail, h.scheduleInv hsched⟩

end CmdEffect

/-- Settles O56: R27's invariant holds after reset and every command keeps it. -/
theorem configurationInvariantKept : Obligations.ConfigurationInvariantKept := by
  refine ⟨fun s t hs h => ?_, fun b hb hc => hb.nr_eq hc⟩
  exact step_keeps configInv_atReset (fun _ _ hb => hb) (fun _ _ _ he => he.configInv) h hs

/-- Settles O57: the four invariants hold after reset and every command keeps each. -/
theorem blockInvariantKept : Obligations.BlockInvariantKept := fun _ _ hs h =>
  step_keeps blockInv_atReset (fun _ _ hb => hb) (fun _ _ _ he => he.blockInv) h hs

/-- Settles O58: `State.reset` is a block at its reset values. -/
theorem blockInvariantAtReset : Obligations.BlockInvariantAtReset := blockInv_atReset Word.zero 0

end Sys2Proof.Machine
end

section
/-! PROOFS. What cannot be observed: no read returns the key latches or the hidden `W` and `word`, and no command but EXPAND
uses them, so states that differ in these only answer alike (10_state.md R31, R34). -/

namespace Sys2Proof.Machine

/-- Two blocks that differ at most in the key latches, where `keys`, and in `W` and `word`, where `hidden`. -/
def Alike (keys hidden : Prop) (b c : Block) : Prop :=
  ∃ key w word, c = { b with key := key, w := w, word := word } ∧
    (¬keys → key = b.key) ∧ (¬hidden → w = b.w ∧ word = b.word)

/-- Two states that differ in their blocks only, and there as `Alike` allows. -/
def AlikeStates (keys hidden : Prop) (s u : State) : Prop :=
  ∃ c, Alike keys hidden s.block c ∧ u = s.setBlock c

/-- Every next state of the first answer is met by one of the second. -/
def MetBy (keys hidden : Prop) (r r' : Result) : Prop :=
  ∀ t, r = .next t → ∃ t', r' = .next t' ∧ AlikeStates keys hidden t t'

section

variable {keys hidden : Prop} {b c : Block} {s u : State}

theorem alike_refl (keys hidden : Prop) (b : Block) : Alike keys hidden b b :=
  ⟨b.key, b.w, b.word, rfl, fun _ => rfl, fun _ => ⟨rfl, rfl⟩⟩

namespace Alike

theorem failCommand (h : Alike keys hidden b c) (e : ErrCode) :
    Alike keys hidden (failCommand e b) (failCommand e c) := by
  obtain ⟨key, w, word, rfl, hrest⟩ := h
  exact ⟨key, w, word, rfl, hrest⟩

theorem failExpand (h : Alike keys hidden b c) (e : ErrCode) :
    Alike keys hidden (failExpand e b) (failExpand e c) := by
  obtain ⟨key, w, word, rfl, hrest⟩ := h
  exact ⟨key, w, word, rfl, hrest⟩

theorem configBlock (h : Alike keys hidden b c) (klen : Nat) :
    Alike keys hidden (configBlock klen b) (configBlock klen c) := by
  obtain ⟨key, w, word, rfl, hrest⟩ := h
  unfold Machine.configBlock
  split
  · exact ⟨key, w, word, rfl, hrest⟩
  · exact ⟨key, w, word, rfl, hrest⟩

theorem mulx (h : Alike keys hidden b c) (a : Byte) :
    Alike keys hidden { b with mulxRes := a, err := .none } { c with mulxRes := a, err := .none } := by
  obtain ⟨key, w, word, rfl, hrest⟩ := h
  exact ⟨key, w, word, rfl, hrest⟩

theorem writeKey (h : Alike keys hidden b c) (k : Fin 8) (a : Word) :
    Alike keys hidden { b with key := b.key.set k.val a } { c with key := c.key.set k.val a } := by
  obtain ⟨key, w, word, rfl, hkey, hrest⟩ := h
  exact ⟨key.set k.val a, w, word, rfl, fun hk => by rw [hkey hk], hrest⟩

end Alike

namespace AlikeStates

theorem block (h : AlikeStates keys hidden s u) : Alike keys hidden s.block u.block := by
  obtain ⟨c, hc, rfl⟩ := h
  exact hc

theorem outcomes_eq (h : AlikeStates keys hidden s u) : u.outcomes = s.outcomes := by
  obtain ⟨c, -, rfl⟩ := h
  rfl

theorem pending_eq (h : AlikeStates keys hidden s u) : u.pending = s.pending := by
  obtain ⟨c, -, rfl⟩ := h
  rfl

theorem rst_eq (h : AlikeStates keys hidden s u) : u.rst = s.rst := by
  obtain ⟨c, -, rfl⟩ := h
  rfl

theorem fatal_eq (h : AlikeStates keys hidden s u) : u.block.fatal = s.block.fatal := by
  obtain ⟨c, ⟨key, w, word, rfl, -⟩, rfl⟩ := h
  rfl

theorem configuration_eq (h : AlikeStates keys hidden s u) : u.block.cfgValid = s.block.cfgValid ∧
    u.block.nk = s.block.nk ∧ u.block.nr = s.block.nr := by
  obtain ⟨c, ⟨key, w, word, rfl, -⟩, rfl⟩ := h
  exact ⟨rfl, rfl, rfl⟩

/-- The oldest event is taken from both ports. -/
theorem taken (h : AlikeStates keys hidden s u) (rest : List PortEvent) :
    AlikeStates keys hidden { s with pending := rest } { u with pending := rest } := by
  obtain ⟨c, hc, rfl⟩ := h
  exact ⟨c, hc, rfl⟩

theorem respond (h : AlikeStates keys hidden s u) (r : Response) :
    AlikeStates keys hidden (s.respond r) (u.respond r) := by
  obtain ⟨c, hc, rfl⟩ := h
  exact ⟨c, hc, rfl⟩

theorem setBlock (h : AlikeStates keys hidden s u) (hb : Alike keys hidden b c) :
    AlikeStates keys hidden (s.setBlock b) (u.setBlock c) := by
  obtain ⟨_, -, rfl⟩ := h
  exact ⟨c, hb, rfl⟩

theorem releaseReset (h : AlikeStates keys hidden s u) :
    AlikeStates keys hidden (releaseReset s) (releaseReset u) := by
  obtain ⟨c, hc, rfl⟩ := h
  exact ⟨c, hc, rfl⟩

/-- A rise of `rst` leaves no difference. -/
theorem raiseReset (h : AlikeStates keys hidden s u) :
    AlikeStates keys hidden (raiseReset s) (raiseReset u) := by
  obtain ⟨c, -, rfl⟩ := h
  exact ⟨_, alike_refl keys hidden _, rfl⟩

/-- A successful EXPAND from the same latches leaves no difference. -/
theorem expandedState (h : AlikeStates False hidden s u) (sbox : Byte → Byte) :
    AlikeStates False hidden (expandedState sbox s) (expandedState sbox u) := by
  obtain ⟨c, ⟨key, w, word, rfl, hkey, -⟩, rfl⟩ := h
  obtain rfl : key = s.block.key := hkey not_false
  exact ⟨_, alike_refl False hidden _, rfl⟩

end AlikeStates

namespace MetBy

theorem next (h : AlikeStates keys hidden s u) : MetBy keys hidden (.next s) (.next u) := by
  rintro t ⟨⟩
  exact ⟨u, rfl, h⟩

theorem writeDone (h : AlikeStates keys hidden s u) (hb : Alike keys hidden b c) :
    MetBy keys hidden (writeDone b s) (writeDone c u) := next ((h.setBlock hb).respond .writeOk)

theorem readDone (h : AlikeStates keys hidden s u) (v : Reg32) :
    MetBy keys hidden (readDone v s) (readDone v u) := next (h.respond (.readData v))

theorem underLock (h : AlikeStates keys hidden s u) {f : State → Result}
    (hf : MetBy keys hidden (f s) (f u)) : MetBy keys hidden (underLock f s) (underLock f u) := by
  cases hl : s.block.fatal with
  | true =>
    rw [underLock_locked f s hl, underLock_locked f u (h.fatal_eq.trans hl)]
    exact writeDone h (h.block.failCommand .locked)
  | false =>
    rw [underLock_unlocked f s hl, underLock_unlocked f u (h.fatal_eq.trans hl)]
    exact hf

/-- RD_RK reads RK, the configuration and SCHED_VALID only. -/
theorem execRdRk (h : AlikeStates keys hidden s u) (w : Fin 60) :
    MetBy keys hidden (execRdRk w s) (execRdRk w u) := by
  obtain ⟨c, ⟨key, _, word, rfl, -⟩, rfl⟩ := id h
  rw [execRdRk_eq, execRdRk_eq]
  exact next (h.respond _)

/-- EXPAND reads the latches, so it keeps a difference in `W` and `word` only. -/
theorem performExpand (h : AlikeStates False hidden s u) (sbox : Byte → Byte) (kbytes : Nat) :
    MetBy False hidden (performExpand sbox kbytes s) (performExpand sbox kbytes u) := by
  obtain ⟨hc, hnk, hnr⟩ := h.configuration_eq
  simp only [Machine.performExpand, hc, hnk, hnr]
  split_ifs
  · exact writeDone h (h.block.failExpand .notConfigured)
  · exact writeDone h (h.block.failExpand .keylenMismatch)
  · exact nofun
  · exact next ((h.expandedState sbox).respond .writeOk)

/-- A command word below the lock, given that an EXPAND it carries answers alike. -/
theorem performWord (h : AlikeStates keys hidden s u) {v : Reg32}
    (hx : ∀ kbytes, decodeCommand v = .ok (.expand kbytes) → MetBy keys hidden
      (Machine.performExpand Config.SBOX kbytes s) (Machine.performExpand Config.SBOX kbytes u)) :
    MetBy keys hidden (performWord v s) (performWord v u) := by
  unfold Machine.performWord
  match hd : decodeCommand v with
  | .error r => exact writeDone h (h.block.failCommand .illegalCmd)
  | .ok (.config klen) => exact writeDone h (h.block.configBlock klen)
  | .ok (.expand kbytes) => exact hx kbytes hd
  | .ok (.mulx b n) => exact writeDone h (h.block.mulx (multByX b n))

/-- What a transaction performs, given that an EXPAND it carries answers alike. -/
theorem exec (h : AlikeStates keys hidden s u) {q : BusTxn} {i : Instr} (hq : decodeTxn q = .ok i)
    (hx : ∀ v kbytes, i = .wrCmd v → decodeCommand v = .ok (.expand kbytes) → MetBy keys hidden
      (Machine.performExpand Config.SBOX kbytes s) (Machine.performExpand Config.SBOX kbytes u)) :
    MetBy keys hidden (exec i s) (exec i u) := by
  cases i with
  | config klen => exact absurd hq (decodeTxn_ne_command q (.config klen))
  | expand kbytes => exact absurd hq (decodeTxn_ne_command q (.expand kbytes))
  | mulx b n => exact absurd hq (decodeTxn_ne_command q (.mulx b n))
  | wrCmd v => exact underLock h (performWord h fun kbytes => hx v kbytes rfl)
  | wrKey k v => exact writeDone h (h.block.writeKey k (unpack v))
  | rdRk w => exact execRdRk h w
  | rdStatus | rdCfg | rdMulxRes =>
    obtain ⟨c, ⟨key, w, word, rfl, -⟩, rfl⟩ := id h
    exact readDone h _

/-- A step, given that an EXPAND at the port answers alike. -/
theorem step (h : AlikeStates keys hidden s u)
    (hx : ∀ v rest kbytes, s.pending = .txn (cmdWriteTxn v) :: rest →
      decodeCommand v = .ok (.expand kbytes) → MetBy keys hidden
        (Machine.performExpand Config.SBOX kbytes { s with pending := rest })
        (Machine.performExpand Config.SBOX kbytes { u with pending := rest })) :
    MetBy keys hidden (step s) (step u) := by
  match hp : s.pending with
  | [] =>
    rw [step_nil hp, step_nil (h.pending_eq.trans hp)]
    exact next h
  | .rstRise p :: rest =>
    rw [step_rstRise hp, step_rstRise (h.pending_eq.trans hp)]
    exact next (h.taken rest).raiseReset
  | .rstFall :: rest =>
    rw [step_rstFall hp, step_rstFall (h.pending_eq.trans hp)]
    exact next (h.taken rest).releaseReset
  | .txn q :: rest =>
    have hp' := h.pending_eq.trans hp
    cases hr : s.rst with
    | true =>
      rw [step_txn_rst hp hr, step_txn_rst hp' (h.rst_eq.trans hr)]
      exact next (h.taken rest)
    | false =>
      match hd : decodeTxn q with
      | .error c =>
        rw [step_txn_error hp hr hd, step_txn_error hp' (h.rst_eq.trans hr) hd]
        exact next ((h.taken rest).respond (.busError c))
      | .ok i =>
        rw [step_txn_ok hp hr hd, step_txn_ok hp' (h.rst_eq.trans hr) hd]
        refine exec (h.taken rest) hd fun v kbytes hi hv => hx v rest kbytes ?_ hv
        rw [hp, (decodeTxn_wrCmd_iff q v).1 (hi ▸ hd)]

end MetBy

end

/-- States that differ in the key latches only. -/
theorem sameButKeys_iff (s u : State) : SameButKeys s u ↔ AlikeStates True False s u := by
  constructor
  · intro h
    exact ⟨_, ⟨u.block.key, s.block.w, s.block.word, rfl, nofun, fun _ => ⟨rfl, rfl⟩⟩, h⟩
  · rintro ⟨c, ⟨key, w, word, rfl, -, hrest⟩, rfl⟩
    obtain ⟨rfl, rfl⟩ := hrest not_false
    rfl

/-- States that differ in `W` and `word` only. -/
theorem sameButHidden_iff (s u : State) : SameButHidden s u ↔ AlikeStates False True s u := by
  constructor
  · intro h
    exact ⟨_, ⟨s.block.key, u.block.w, u.block.word, rfl, fun _ => rfl, nofun⟩, h⟩
  · rintro ⟨c, ⟨key, w, word, rfl, hkey, -⟩, rfl⟩
    obtain rfl := hkey not_false
    rfl

/-- Settles O59: only an EXPAND reads the latches, and none is presented. -/
theorem keyLatchesAreNotReadable : Obligations.KeyLatchesAreNotReadable := by
  intro s u t h hno hs
  have hx : MetBy True False (step s) (step u) := MetBy.step ((sameButKeys_iff s u).1 h)
    fun v rest kbytes hp hd => absurd ⟨v, rest, kbytes, hp, hd⟩ hno
  obtain ⟨t', hu, ht⟩ := hx t hs
  exact ⟨t', hu, (sameButKeys_iff t t').2 ht, ht.outcomes_eq⟩

/-- No step observes `W` and `word`. -/
theorem step_sameButHidden {s u t : State} (h : SameButHidden s u) (hs : step s = .next t) :
    ∃ t', step u = .next t' ∧ SameButHidden t t' := by
  have h := (sameButHidden_iff s u).1 h
  obtain ⟨t', hu, ht⟩ :=
    MetBy.step h (fun _ rest kbytes _ _ => .performExpand (h.taken rest) Config.SBOX kbytes) t hs
  exact ⟨t', hu, (sameButHidden_iff t t').2 ht⟩

/-- Settles O60, by induction on the number of steps. -/
theorem hiddenElementsAreNotObservable : Obligations.HiddenElementsAreNotObservable := by
  intro k
  induction k with
  | zero =>
    intro s u t h hs
    obtain rfl : s = t := Host.Outcome.next.inj hs
    exact ⟨u, rfl, h, ((sameButHidden_iff s u).1 h).outcomes_eq⟩
  | succ k ih =>
    intro s u t h hs
    obtain ⟨s', hstep, hrest⟩ := run_next_cases k hs
    obtain ⟨u', hu, h'⟩ := step_sameButHidden h hstep
    rw [run_succ k hu]
    exact ih s' u' t h' hrest

end Sys2Proof.Machine
end

section
/-! PROOFS. Where the model stops, and the one writer of each element (10_state.md R22 to R33). -/

namespace Sys2Proof.Machine

/-- Of the instructions a transaction performs, only a CMD write can stop. -/
theorem exec_txn_fault_iff {q : BusTxn} {i : Instr} (hq : decodeTxn q = .ok i) (s : State) (r : Fault) :
    exec i s = .fault r ↔ ∃ v, i = .wrCmd v ∧ execWrCmd v s = .fault r := by
  cases i with
  | config klen => exact absurd hq (decodeTxn_ne_command q (.config klen))
  | expand kbytes => exact absurd hq (decodeTxn_ne_command q (.expand kbytes))
  | mulx b n => exact absurd hq (decodeTxn_ne_command q (.mulx b n))
  | wrCmd v => simp [exec]
  | wrKey k v => simp [exec, execWrKey, writeDone_eq]
  | rdStatus => simp [exec, execRdStatus, readDone_eq]
  | rdCfg => simp [exec, execRdCfg, readDone_eq]
  | rdMulxRes => simp [exec, execRdMulxRes, readDone_eq]
  | rdRk w => simp [exec, execRdRk_eq]

/-- A step stops exactly where the CMD write it performs does. -/
theorem step_fault_iff (s : State) (r : Fault) : step s = .fault r ↔
    ∃ v rest, s.pending = .txn (cmdWriteTxn v) :: rest ∧ s.rst = false ∧
      execWrCmd v { s with pending := rest } = .fault r := by
  match hp : s.pending with
  | [] => simp [step_nil hp]
  | .rstRise p :: rest => simp [step_rstRise hp]
  | .rstFall :: rest => simp [step_rstFall hp]
  | .txn q :: rest =>
    cases hr : s.rst with
    | true => simp [step_txn_rst hp hr]
    | false =>
      match hd : decodeTxn q with
      | .error c =>
        have hq : ∀ v, q ≠ cmdWriteTxn v := fun v hv => by simp [(decodeTxn_wrCmd_iff q v).2 hv] at hd
        simp [step_txn_error hp hr hd, raiseBusError_eq, hq]
      | .ok i =>
        have hi (v : Reg32) : i = .wrCmd v ↔ q = cmdWriteTxn v := by
          simp [← decodeTxn_wrCmd_iff, hd]
        simp [step_txn_ok hp hr hd, exec_txn_fault_iff hd, hi, hr]

/-- Settles O14: the stop of a CMD write, at the port. -/
theorem onlyUnconfiguredPairStops : Obligations.OnlyUnconfiguredPairStops := by
  intro s r
  rw [step_fault_iff]
  constructor
  · rintro ⟨v, rest, hp, hr, hstop⟩
    obtain ⟨he, hf, hc, hpair, kbytes, hd, hk⟩ := (execWrCmd_fault_iff v _ r).1 hstop
    exact ⟨he, hr, hf, hc, hpair, v, rest, kbytes, hp, hd, hk⟩
  · rintro ⟨he, hr, hf, hc, hpair, v, rest, kbytes, hp, hd, hk⟩
    exact ⟨v, rest, hp, hr, (execWrCmd_fault_iff v _ r).2 ⟨he, hf, hc, hpair, kbytes, hd, hk⟩⟩

/-- A step that changes FATAL was a rise of `rst` or a CMD write of an unsupported CONFIG, which sets it. -/
theorem step_fatal_cases {s t : State} (h : step s = .next t) :
    t.block.fatal = s.block.fatal ∨
    (t.block.fatal = false ∧ ∃ p rest, s.pending = .rstRise p :: rest) ∨
    (t.block.fatal = true ∧ ∃ v rest klen, s.pending = .txn (cmdWriteTxn v) :: rest ∧ s.rst = false ∧
      decodeCommand v = .ok (.config klen) ∧ klen ≠ 128 ∧ klen ≠ 192 ∧ klen ≠ 256) := by
  cases step_block_cases h with
  | kept hb => exact .inl (by rw [hb])
  | reset p rest a c hp hb => exact .inr (.inl ⟨by rw [hb]; rfl, p, rest, hp⟩)
  | txn q rest hp he =>
    cases he with
    | kept hq hb => exact .inl (by rw [hb])
    | keyWrite k v hr hd hb => exact .inl (by rw [hb])
    | command v hr hd he =>
      obtain hkept | ⟨hset, klen, hv, hnone⟩ := he.fatal_cases
      · exact .inl hkept
      · rw [decodeTxn_wrCmd_iff] at hd
        exact .inr (.inr ⟨hset, v, rest, klen, hd ▸ hp, hr, hv, (keyParams_eq_none_iff klen).1 hnone⟩)

/-- Settles O30, from what can change FATAL. -/
theorem fatalSetAndClearedOnlyBy : Obligations.FatalSetAndClearedOnlyBy := by
  intro s t h
  obtain hkept | ⟨hclear, hrise⟩ | ⟨hset, hconfig⟩ := step_fatal_cases h
  · exact ⟨fun hs ht => by simp [hkept, hs] at ht, fun hs ht => by simp [hkept, hs] at ht⟩
  · exact ⟨fun _ ht => by simp [hclear] at ht, fun _ _ => hrise⟩
  · exact ⟨fun _ _ => hconfig, fun _ ht => by simp [hset] at ht⟩

/-- Settles O35: each command's effect on SCHED_VALID. -/
theorem schedValidAfterEachTransaction : Obligations.SchedValidAfterEachTransaction := by
  intro s t q rest hp hr h
  refine ⟨fun hq => ?_, fun v hd => ?_⟩
  · cases step_txn_cases hp h with
    | kept hq hb => rw [hb]
    | keyWrite k v hr hd hb => rw [hb]
    | command v hr hd he => exact absurd hd (hq v)
  · have he := step_wrCmd_cases hp hr hd h
    exact ⟨he.schedValid_of_locked, fun hf => ⟨fun _ => he.schedValid_of_illegal,
      fun _ => he.schedValid_of_config hf, fun _ => he.schedValid_iff_of_expand hf,
      fun _ _ => he.schedValid_of_mulx⟩⟩

/-- Settles O36: the latch of a KEY write is the only change to the latches. -/
theorem keyLatchesWrittenOnlyByHost : Obligations.KeyLatchesWrittenOnlyByHost := by
  intro s t q rest hp h
  cases step_txn_cases hp h with
  | kept hq hb => exact .inl (by rw [hb])
  | keyWrite k v hr hd hb =>
    refine .inr ⟨k, v, hd, hr, by simp [hb], fun j hj => ?_⟩
    simp [hb, Vector.getElem_set_ne, Fin.val_ne_of_ne hj.symm]
  | command v hr hd he => exact .inl he.key_eq

/-- Settles O37: only a CMD write that carries EXPAND writes RK. -/
theorem scheduleWrittenOnlyByExpand : Obligations.ScheduleWrittenOnlyByExpand := by
  intro s t q rest hp h
  cases step_txn_cases hp h with
  | kept hq hb => exact .inl (by rw [hb])
  | keyWrite k v hr hd hb => exact .inl (by rw [hb])
  | command v hr hd he =>
    obtain hkept | ⟨kbytes, hv, herr, hvalid, hrk⟩ := he.rk_cases
    · exact .inl hkept
    · exact .inr ⟨v, kbytes, hd, hv, hr, herr, hvalid, hrk⟩

/-- Settles O38: only a CMD write that carries MULX writes MULX_RES. -/
theorem mulxResWrittenOnlyByMulx : Obligations.MulxResWrittenOnlyByMulx := by
  intro s t q rest hp h
  cases step_txn_cases hp h with
  | kept hq hb => exact .inl (by rw [hb])
  | keyWrite k v hr hd hb => exact .inl (by rw [hb])
  | command v hr hd he =>
    obtain hkept | ⟨b, n, hv, hf, herr, hres⟩ := he.mulxRes_cases
    · exact .inl hkept
    · exact .inr ⟨v, b, n, hd, hv, hr, hf, herr, hres⟩

/-- Settles O39: only a CMD write that carries CONFIG writes the configuration. -/
theorem configurationWrittenOnlyByConfig : Obligations.ConfigurationWrittenOnlyByConfig := by
  intro s t q rest hp h
  cases step_txn_cases hp h with
  | kept hq hb => exact .inl (by simp [hb])
  | keyWrite k v hr hd hb => exact .inl (by simp [hb])
  | command v hr hd he =>
    obtain hkept | ⟨klen, hv, hf⟩ := he.configuration_cases
    · exact .inl hkept
    · exact .inr ⟨v, klen, hd, hv, hr, hf⟩

end Sys2Proof.Machine
end

section
/-! PROOFS. The composed registers as numbers, what reads of them return, and the reset values
(10_state.md R36, R38, R39). -/

namespace Sys2Proof.Machine

/-- A bit equals a constant when the binary digit of the number does. -/
theorem getLsbD_eq_iff {n : Nat} (v : BitVec n) (i : Nat) (c : Bool) :
    v.getLsbD i = c ↔ v.toNat / 2 ^ i % 2 = c.toNat := by
  rw [BitVec.getLsbD, Nat.testBit_eq_decide_div_mod_eq]
  cases c <;> simp

/-- STATUS as a number. -/
theorem statusReg_toNat (b : Block) : (statusReg b).toNat =
    16 * (errBits b.err).toNat + 4 * b.fatal.toNat + 2 * b.schedValid.toNat + b.cfgValid.toNat := by
  simp only [statusReg, toNat_append_add, BitVec.toNat_ofBool, BitVec.toNat_ofNat]
  omega

/-- CFG as a number. -/
theorem cfgReg_toNat (b : Block) : (cfgReg b).toNat =
    65536 * (nwords b % 64) + 256 * b.nr.toNat + 16 * b.nk.toNat + 4 := by
  have hNB : Config.NB.toNat = 4 := rfl
  simp only [cfgReg, toNat_append_add, BitVec.toNat_ofNat, hNB]
  omega

/-- NWORDS of a configured block. -/
theorem nwords_of_configured {b : Block} (h : b.cfgValid = true) : nwords b = 4 * (b.nr.toNat + 1) := by
  simp only [nwords, h, if_true]
  rfl

/-- NWORDS of an unconfigured block. -/
theorem nwords_of_unconfigured {b : Block} (h : b.cfgValid = false) : nwords b = 0 := by
  simp [nwords, h]

/-- Settles O17: the fields of STATUS. -/
theorem statusReadLayout : Obligations.StatusReadLayout := by
  intro s
  have hf := s.block.fatal.toNat_le
  have hs := s.block.schedValid.toNat_le
  have hc := s.block.cfgValid.toNat_le
  refine ⟨statusReg s.block, readDone_eq _ s, ?_, ?_, ?_, ?_, ?_, ?_⟩
  all_goals
    simp only [getLsbD_eq_iff, extract_eq_iff, statusReg_toNat, Bool.toNat_false, BitVec.ofNat_eq_ofNat,
      BitVec.toNat_ofNat]
    omega

/-- Settles O19: the fields of CFG; 6 bits hold NWORDS but for `NR = 15`. -/
theorem cfgReadLayout : Obligations.CfgReadLayout := by
  intro s
  refine ⟨cfgReg s.block, readDone_eq _ s, ?_, ?_, ?_, ?_, ?_, fun hc => ?_, fun hc hne => ?_⟩
  case refine_6 =>
    simp only [extract_eq_iff, cfgReg_toNat, nwords_of_unconfigured hc, BitVec.ofNat_eq_ofNat, BitVec.toNat_ofNat]
    omega
  case refine_7 =>
    have hne : s.block.nr.toNat ≠ 15 := fun h => hne (BitVec.eq_of_toNat_eq h)
    have hlt : 4 * (s.block.nr.toNat + 1) % 64 = 4 * (s.block.nr.toNat + 1) := Nat.mod_eq_of_lt (by omega)
    have hfield : (cfgReg s.block).toNat / 65536 = 4 * (s.block.nr.toNat + 1) := by
      rw [cfgReg_toNat, nwords_of_configured hc, hlt]
      omega
    rw [extract_toNat]
    exact (congrArg (· % 64) hfield).trans hlt
  all_goals
    simp only [extract_eq_iff, cfgReg_toNat, BitVec.ofNat_eq_ofNat, BitVec.toNat_ofNat]
    omega

/-- MULX_RES is the result byte, zero-extended. -/
theorem mulxResReg_eq (b : Block) : mulxResReg b = b.mulxRes.zeroExtend 32 := by
  apply BitVec.eq_of_toNat_eq
  simp only [mulxResReg, toNat_append_add, BitVec.zeroExtend, BitVec.toNat_setWidth, BitVec.toNat_ofNat]
  omega

/-- Settles O20. -/
theorem mulxResReadLayout : Obligations.MulxResReadLayout := by
  intro s
  rw [← mulxResReg_eq]
  exact readDone_eq _ s

/-- CFG after CONFIG with a length of the table, as a number. -/
theorem cfgReg_configBlock {klen : Nat} {p : BitVec 4 × BitVec 4} (b : Block) (h : keyParams klen = some p) :
    (cfgReg (configBlock klen b)).toNat =
      65536 * (4 * (p.2.toNat + 1) % 64) + 256 * p.2.toNat + 16 * p.1.toNat + 4 := by
  rw [configBlock_of_some b h, cfgReg_toNat, nwords_of_configured rfl]

/-- An unlocked CONFIG, then a read of CFG. -/
theorem rdCfg_after_config {s : State} (h : s.block.fatal = false) {klen : Nat} {v : Reg32}
    (hv : cfgReg (configBlock klen s.block) = v) : ∃ t, exec (.config klen) s = .next t ∧
      exec .rdCfg t = .next { t with outcomes := t.outcomes ++ [.readData v] } := by
  subst hv
  exact ⟨_, underLock_unlocked (performConfig klen) s h, rfl⟩

/-- Settles O21: the value of CFG for each pair of the table. -/
theorem cfgValueAfterConfig : Obligations.CfgValueAfterConfig := by
  intro s h
  have hread {klen : Nat} {p : BitVec 4 × BitVec 4} (hp : keyParams klen = some p) {v : Reg32}
      (hv : 65536 * (4 * (p.2.toNat + 1) % 64) + 256 * p.2.toNat + 16 * p.1.toNat + 4 = v.toNat) :=
    rdCfg_after_config h (BitVec.eq_of_toNat_eq ((cfgReg_configBlock s.block hp).trans hv))
  simp only [List.forall_mem_cons, List.not_mem_nil, false_implies, implies_true, and_true]
  exact ⟨hread (klen := 128) rfl rfl, hread (klen := 192) rfl rfl, hread (klen := 256) rfl rfl⟩

/-- Settles O24: a rise of `rst` writes `Block.atReset`, whose elements are those of R36's table. -/
theorem resetValues : Obligations.ResetValues := by
  refine ⟨rfl, fun s p rest hp => ?_, rfl, fun a c => ?_⟩
  · exact ⟨_, step_rstRise hp, rfl, rfl, rfl, rfl⟩
  · refine ⟨rfl, rfl, rfl, rfl, rfl, rfl, rfl, fun i => ?_, fun w => ?_⟩
    · exact Vector.getElem_replicate i.isLt
    · exact Vector.getElem_replicate w.isLt

end Sys2Proof.Machine
end

section
/-! PROOFS. The host port (20_memory.md): the packing of Words, what each access does, that every accepted transaction
ends in one outcome, and what a repeated access does. -/

namespace Sys2Proof.Machine

/-- A packed Word as a number: byte 0 is the most significant. -/
theorem pack_toNat (a : Word) : (pack a).toNat =
    16777216 * a.b0.toNat + 65536 * a.b1.toNat + 256 * a.b2.toNat + a.b3.toNat := by
  simp only [pack, toNat_append_add]
  omega

/-- The bytes of a packed Word, from the highest. -/
theorem pack_bytes (a : Word) :
    (pack a).extractLsb' 24 8 = a.b0 ∧ (pack a).extractLsb' 16 8 = a.b1 ∧
      (pack a).extractLsb' 8 8 = a.b2 ∧ (pack a).extractLsb' 0 8 = a.b3 := by
  have h0 := a.b0.isLt
  have h1 := a.b1.isLt
  have h2 := a.b2.isLt
  have h3 := a.b3.isLt
  simp only [extract_eq_iff, pack_toNat]
  omega

@[simp] theorem unpack_pack (a : Word) : unpack (pack a) = a := by
  obtain ⟨h0, h1, h2, h3⟩ := pack_bytes a
  simp only [unpack, h0, h1, h2, h3]

@[simp] theorem pack_unpack (v : Reg32) : pack (unpack v) = v := by
  have hv := v.isLt
  apply BitVec.eq_of_toNat_eq
  simp only [pack_toNat, unpack, extract_toNat]
  omega

/-- Settles O23: the bytes of `pack` as digits of a number, and the two inverse laws. -/
theorem packingIsBigEndian : Obligations.PackingIsBigEndian := by
  refine ⟨fun a => ?_, pack_unpack⟩
  obtain ⟨h0, h1, h2, h3⟩ := pack_bytes a
  exact ⟨h0, h1, h2, h3, unpack_pack a⟩

/-- Settles O8. -/
theorem stepRunsDecodedTransaction : Obligations.StepRunsDecodedTransaction :=
  fun _ _ _ _ hp hr hd => step_txn_ok hp hr hd

/-- Settles O9: the step runs WR_CMD, which is the command its word decodes to. -/
theorem stepRunsCarriedCommand : Obligations.StepRunsCarriedCommand := by
  intro s v rest c hp hr hd
  rw [step_txn_ok hp hr ((decodeTxn_wrCmd_iff _ v).2 rfl)]
  exact execWrCmd_of_decode v c hd _

/-- How a read of round-key word `w` ends (20_memory.md R51). -/
def roundKeyResponse (w : Fin 60) (b : Block) : Response :=
  if b.schedValid = false then .busError .rkInvalid
  else if w.val ≥ nwords b then .busError .rkRange
  else .readData (pack b.rk[w.val])

/-- RD_RK as an instruction: it only answers. -/
theorem exec_rdRk (w : Fin 60) (s : State) :
    exec (.rdRk w) s = .next (s.respond (roundKeyResponse w s.block)) := execRdRk_eq w s

/-- Settles O22: the three branches of RD_RK. -/
theorem roundKeyRead : Obligations.RoundKeyRead := by
  intro s w
  rw [exec_rdRk, roundKeyResponse]
  refine ⟨fun hinvalid => ?_, fun hvalid hbeyond => ?_, fun hvalid hbelow => ?_⟩
  · rw [if_pos hinvalid]
    rfl
  · rw [if_neg (by simp [hvalid]), if_pos hbeyond]
    rfl
  · rw [if_neg (by simp [hvalid]), if_neg (by omega)]
    rfl

/-- WR_KEY as an instruction. -/
theorem exec_wrKey (k : Fin 8) (v : Reg32) (s : State) : exec (.wrKey k v) s =
    .next ((s.setBlock { s.block with key := s.block.key.set k.val (unpack v) }).respond .writeOk) := rfl

/-- Settles O53: a KEY write sets one element of the latches' vector. -/
theorem keyWriteSetsItsLatch : Obligations.KeyWriteSetsItsLatch := by
  intro k v s
  refine ⟨_, exec_wrKey k v s, rfl, Vector.getElem_set_self k.isLt, fun j hj => ?_⟩
  exact Vector.getElem_set_ne k.isLt j.isLt (Fin.val_ne_of_ne hj.symm)

/-- A supported configuration is a pair of R110's table. -/
theorem ConfigInv.configuredPair {b : Block} (h : ConfigInv b) (hc : b.cfgValid = true) :
    configuredPair b.nk b.nr = true := by
  obtain ⟨-, hpair⟩ | ⟨hf, -⟩ := h
  · exact decide_eq_true hpair
  · simp [hf] at hc

namespace CmdEffect

variable {v : Reg32} {s t : State}

/-- The transaction of a command ends OK, whether the command fails or not (20_memory.md R48). -/
theorem outcomes_eq (h : CmdEffect v s t) : t.outcomes = s.outcomes ++ [.writeOk] := by
  cases h <;> simp

theorem pending_eq (h : CmdEffect v s t) : t.pending = s.pending := by
  cases h <;> simp

end CmdEffect

/-- A CMD write completes in every state of the configuration invariant: the pair it could stop at is excluded. -/
theorem execWrCmd_completes {s : State} (hs : ConfigInv s.block) (v : Reg32) : Completes (execWrCmd v s) := by
  match h : execWrCmd v s with
  | .next t => exact ⟨t, rfl⟩
  | .refused r => exact absurd h (execWrCmd_ne_refused v s r)
  | .fault r =>
    obtain ⟨-, -, hc, hpair, -⟩ := (execWrCmd_fault_iff v s r).1 h
    simp [hs.configuredPair hc] at hpair

/-- Every instruction a transaction performs completes in a state of the configuration invariant. -/
theorem exec_txn_completes {q : BusTxn} {i : Instr} {s : State} (hs : ConfigInv s.block)
    (hq : decodeTxn q = .ok i) : Completes (exec i s) := by
  cases i with
  | config klen => exact absurd hq (decodeTxn_ne_command q (.config klen))
  | expand kbytes => exact absurd hq (decodeTxn_ne_command q (.expand kbytes))
  | mulx b n => exact absurd hq (decodeTxn_ne_command q (.mulx b n))
  | wrCmd v => exact execWrCmd_completes hs v
  | wrKey k v => exact ⟨_, exec_wrKey k v s⟩
  | rdRk w => exact ⟨_, exec_rdRk w s⟩
  | rdStatus | rdCfg | rdMulxRes => exact ⟨_, readDone_eq _ s⟩

/-- Settles O13: a bus error of the decoder, or one of the effects of `exec_txn_cases`. -/
theorem eachTransactionEndsOnce : Obligations.EachTransactionEndsOnce := by
  intro s q rest hs hp hr
  match hd : decodeTxn q with
  | .error c => exact ⟨_, _, step_txn_error hp hr hd, rfl, rfl, .inr (.inr ⟨c, rfl, rfl⟩)⟩
  | .ok i =>
    obtain ⟨u, hu⟩ := exec_txn_completes (s := { s with pending := rest }) hs hd
    refine ⟨u, ?_⟩
    rw [step_txn_ok hp hr hd]
    obtain ⟨v, -, rfl, he⟩ | ⟨k, v, -, hwe, rfl⟩ | ⟨hwe, -, -, ⟨v, rfl⟩ | ⟨c, rfl⟩⟩ := exec_txn_cases hd hu
    · exact ⟨_, hu, he.outcomes_eq, he.pending_eq, .inl ⟨rfl, rfl⟩⟩
    · exact ⟨_, hu, rfl, rfl, .inl ⟨hwe, rfl⟩⟩
    · exact ⟨_, hu, rfl, rfl, .inr (.inl ⟨hwe, v, rfl⟩)⟩
    · exact ⟨_, hu, rfl, rfl, .inr (.inr ⟨c, rfl, rfl⟩)⟩

/-- An unlocked CMD write of a word that is no command (30_encoding.md R76). -/
theorem execWrCmd_of_error {v : Reg32} {s : State} {r : CommandReject} (hf : s.block.fatal = false)
    (hd : decodeCommand v = .error r) :
    execWrCmd v s = writeDone (failCommand .illegalCmd s.block) s := by
  rw [execWrCmd, underLock_unlocked _ _ hf, performWord, hd]

/-- Settles O31, in R74's order: the lock, an illegal word, the command's own rule. -/
theorem cmdWritePerformsItsCommand : Obligations.CmdWritePerformsItsCommand := by
  intro v s
  refine ⟨fun hf => underLock_locked _ s hf, fun r hf hd => execWrCmd_of_error hf hd,
    fun c hd => execWrCmd_of_decode v c hd s, fun hs => ?_⟩
  obtain ⟨t, ht⟩ := execWrCmd_completes hs v
  exact ⟨t, ht, (execWrCmd_cases ht).outcomes_eq⟩

/-- What a read answers does not depend on the outcomes recorded before it, and it writes nothing else (20_memory.md R49,
R51). -/
theorem exec_read (i : Instr) (s : State)
    (hi : i = .rdStatus ∨ i = .rdCfg ∨ i = .rdMulxRes ∨ ∃ w, i = .rdRk w) :
    ∃ r, ∀ l, exec i { s with outcomes := l } = .next { s with outcomes := l ++ [r] } := by
  obtain rfl | rfl | rfl | ⟨w, rfl⟩ := hi
  · exact ⟨.readData (statusReg s.block), fun l => readDone_eq _ { s with outcomes := l }⟩
  · exact ⟨.readData (cfgReg s.block), fun l => readDone_eq _ { s with outcomes := l }⟩
  · exact ⟨.readData (mulxResReg s.block), fun l => readDone_eq _ { s with outcomes := l }⟩
  · exact ⟨roundKeyResponse w s.block, fun l => exec_rdRk w { s with outcomes := l }⟩

/-- A KEY write to a latch that holds its value already only records its outcome. -/
theorem exec_wrKey_again {k : Fin 8} {v : Reg32} {s t : State} (h : exec (.wrKey k v) s = .next t) :
    exec (.wrKey k v) t = .next { t with outcomes := t.outcomes ++ [.writeOk] } := by
  cases h
  simp [exec_wrKey, State.respond, State.setBlock]

/-- CONFIG from an unlocked state. -/
theorem exec_config_unlocked {s : State} (hf : s.block.fatal = false) (klen : Nat) :
    exec (.config klen) s = .next ((s.setBlock (configBlock klen s.block)).respond .writeOk) :=
  underLock_unlocked (performConfig klen) s hf

/-- CONFIG under the lock. -/
theorem exec_config_locked {s : State} (hf : s.block.fatal = true) (klen : Nat) :
    exec (.config klen) s = .next ((s.setBlock (failCommand .locked s.block)).respond .writeOk) :=
  underLock_locked (performConfig klen) s hf

/-- A CONFIG in a state without a valid schedule leaves none, under the lock or not. -/
theorem exec_config_without_schedule {s : State} (hv : s.block.schedValid = false) (klen : Nat) :
    ∃ u, exec (.config klen) s = .next u ∧ u.block.schedValid = false ∧
      (s.block.fatal = true → u.block.err = .locked) := by
  cases hf : s.block.fatal with
  | false => exact ⟨_, exec_config_unlocked hf klen, by simp, nofun⟩
  | true => exact ⟨_, exec_config_locked hf klen, by simp [hv], fun _ => rfl⟩

/-- A CONFIG with an unsupported length leaves the lock and its code (41_configuration.md R112). -/
theorem configBlock_unsupported {klen : Nat} (b : Block) (h : keyParams klen = none) :
    (configBlock klen b).fatal = true ∧ (configBlock klen b).err = .badKeylen := by
  rw [configBlock_of_none b h]
  exact ⟨rfl, rfl⟩

/-- What EXPAND needs of the block to write the schedule (42_key_expansion.md R129). -/
def ExpandReady (kbytes : Nat) (b : Block) : Prop :=
  b.fatal = false ∧ b.cfgValid = true ∧ kbytes = 4 * b.nk.toNat ∧ configuredPair b.nk b.nr = true

/-- EXPAND in a block that is ready. -/
theorem exec_expand_ready {kbytes : Nat} {s : State} (h : ExpandReady kbytes s.block) :
    exec (.expand kbytes) s = .next ((expandedState Config.SBOX s).respond .writeOk) := by
  obtain ⟨hf, hc, hk, hp⟩ := h
  rw [exec, execExpand, underLock_unlocked _ _ hf]
  simp [performExpand, hc, hk, hp]

/-- An EXPAND that leaves no error code found its block ready and wrote the schedule. -/
theorem exec_expand_succeeds {kbytes : Nat} {s t : State} (h : exec (.expand kbytes) s = .next t)
    (he : t.block.err = .none) :
    ExpandReady kbytes s.block ∧ t = (expandedState Config.SBOX s).respond .writeOk := by
  cases hf : s.block.fatal with
  | true =>
    rw [exec, execExpand, underLock_locked _ _ hf] at h
    cases h
    cases he
  | false =>
    rw [exec, execExpand, underLock_unlocked _ _ hf, performExpand] at h
    split_ifs at h with hc hk hp
    · cases h
      cases he
    · cases h
      cases he
    · cases h
      exact ⟨⟨hf, by simpa using hc, not_not.1 hk, by simpa using hp⟩, rfl⟩

/-- Settles O54: the second access in the state the first one leaves. -/
theorem repeatedAccesses : Obligations.RepeatedAccesses := by
  refine ⟨fun i s hi => ?_, fun k v s t h => exec_wrKey_again h, fun klen klen' s t hf h => ?_,
    fun kbytes s t h he => ?_⟩
  · obtain ⟨r, hr⟩ := exec_read i s hi
    exact ⟨r, hr s.outcomes, by simpa using hr (s.outcomes ++ [r])⟩
  · have hb : t.block = configBlock klen s.block := by
      rw [exec_config_unlocked hf] at h
      cases h
      rfl
    obtain ⟨u, hu, hvalid, hlocked⟩ := exec_config_without_schedule (s := t) (by simp [hb]) klen'
    refine ⟨u, hu, hvalid, fun h1 h2 h3 => ?_⟩
    obtain ⟨hfatal, herr⟩ := configBlock_unsupported s.block ((keyParams_eq_none_iff klen).2 ⟨h1, h2, h3⟩)
    exact ⟨hb ▸ herr, hlocked (hb ▸ hfatal)⟩
  · obtain ⟨hready, rfl⟩ := exec_expand_succeeds h he
    exact ⟨_, exec_expand_ready hready, rfl, rfl⟩

end Sys2Proof.Machine
end

section
/-! PROOFS. Encoding (30_encoding.md): decoding and encoding are each the other's inverse, the opcode map, the forms of
the host transactions, and the pseudo-instructions. -/

namespace Sys2Proof.Machine

/-! ### Patterns -/

/-- A command word decodes to the instruction of its command. -/
theorem decode_command_iff (v : Reg32) (i : Instr) :
    decode (.command v) = .ok i ↔ ∃ c : Command, c.toInstr = i ∧ decodeCommand v = .ok c := by
  rw [decode]
  cases decodeCommand v <;> simp

theorem rejectTxn_ok_iff (r : Except BusCause Instr) (i : Instr) : rejectTxn r = .ok i ↔ r = .ok i := by
  cases r <;> simp [rejectTxn]

/-- A 45-bit pattern with `we = 1` decodes as its transaction does. -/
theorem decode_hostWrite_iff (p : BitVec 45) (i : Instr) : decode (.hostWrite p) = .ok i ↔
    (txnOfWritePattern p).we = true ∧ decodeTxn (txnOfWritePattern p) = .ok i := by
  have hwe : (txnOfWritePattern p).we = p.getLsbD 44 := rfl
  rw [decode, hwe, ← rejectTxn_ok_iff]
  cases p.getLsbD 44 <;> simp

/-- A 13-bit pattern with `we = 0` decodes as its transaction does. -/
theorem decode_hostRead_iff (p : BitVec 13) (i : Instr) : decode (.hostRead p) = .ok i ↔
    (txnOfReadPattern p).we = false ∧ decodeTxn (txnOfReadPattern p) = .ok i := by
  have hwe : (txnOfReadPattern p).we = p.getLsbD 12 := rfl
  rw [decode, hwe, ← rejectTxn_ok_iff]
  cases p.getLsbD 12 <;> simp

/-- The fields of a write's pattern determine it: 1 + 2 + 10 + 32 bits, with none left over (R78). -/
theorem writePattern_eq_iff (a : BitVec 10) (v : Reg32) (p : BitVec 45) :
    writePattern a v = p ↔ txnOfWritePattern p = { we := true, size := 2, addr := a, wdata := v } := by
  have ha := a.isLt
  have hv := v.isLt
  have hp := p.isLt
  simp only [writePattern, txnOfWritePattern, BusTxn.mk.injEq, getLsbD_eq_iff, ← BitVec.toNat_inj, extract_toNat,
    toNat_append_add, Bool.toNat_true, BitVec.ofNat_eq_ofNat, BitVec.toNat_ofNat]
  omega

/-- The fields of a read's pattern determine it: 1 + 2 + 10 bits, with none left over (R78). -/
theorem readPattern_eq_iff (a : BitVec 10) (p : BitVec 13) :
    readPattern a = p ↔ txnOfReadPattern p = { we := false, size := 2, addr := a, wdata := 0 } := by
  have ha := a.isLt
  have hp := p.isLt
  simp only [readPattern, txnOfReadPattern, BusTxn.mk.injEq, getLsbD_eq_iff, ← BitVec.toNat_inj, extract_toNat,
    toNat_append_add, Bool.toNat_false, BitVec.ofNat_eq_ofNat, BitVec.toNat_ofNat, and_true]
  omega

/-- The instructions that are written as command words. -/
theorem encode_command_iff (i : Instr) (v : Reg32) :
    encode i = some (.command v) ↔ ∃ c : Command, c.toInstr = i ∧ encodeCommand c = some v := by
  constructor
  · intro h
    cases i with
    | config klen => exact ⟨.config klen, rfl, by simpa [encode] using h⟩
    | expand kbytes => exact ⟨.expand kbytes, rfl, by simpa [encode] using h⟩
    | mulx b n => exact ⟨.mulx b n, rfl, by simpa [encode] using h⟩
    | _ => simp [encode] at h
  · rintro ⟨c, rfl, h⟩
    cases c <;> simp [Command.toInstr, encode, h]

/-- The instructions that are written as write patterns. -/
theorem encode_hostWrite_iff (i : Instr) (p : BitVec 45) : encode i = some (.hostWrite p) ↔
    ∃ r v, portForm i = some (true, r, some v) ∧ writePattern r.offset v = p := by
  cases i <;> simp [encode, portForm]

/-- The instructions that are written as read patterns. -/
theorem encode_hostRead_iff (i : Instr) (p : BitVec 13) : encode i = some (.hostRead p) ↔
    ∃ r, portForm i = some (false, r, none) ∧ readPattern r.offset = p := by
  cases i <;> simp [encode, portForm]

/-- Decoding and encoding a pattern are each the other's inverse. -/
theorem decode_ok_iff (c : Code) (i : Instr) : decode c = .ok i ↔ encode i = some c := by
  cases c with
  | command v => simp only [decode_command_iff, encode_command_iff, decodeCommand_ok_iff]
  | hostWrite p =>
    rw [decode_hostWrite_iff, encode_hostWrite_iff, decodeTxn_ok_iff]
    simp only [writePattern_eq_iff]
    constructor
    · rintro ⟨hwe, hsize, r, haddr, hform⟩
      exact ⟨r, _, by simpa [hwe] using hform, by rw [← hwe, ← hsize, ← haddr]⟩
    · rintro ⟨r, v, hform, ht⟩
      rw [ht]
      exact ⟨rfl, rfl, r, rfl, hform⟩
  | hostRead p =>
    rw [decode_hostRead_iff, encode_hostRead_iff, decodeTxn_ok_iff]
    simp only [readPattern_eq_iff]
    constructor
    · rintro ⟨hwe, hsize, r, haddr, hform⟩
      exact ⟨r, by simpa [hwe] using hform, by rw [← hwe, ← hsize, ← haddr]; rfl⟩
    · rintro ⟨r, hform, ht⟩
      rw [ht]
      exact ⟨rfl, rfl, r, rfl, hform⟩

/-- An instruction has a pattern exactly when it is well formed. -/
theorem encode_isSome_iff (i : Instr) : (∃ c, encode i = some c) ↔ i.wellFormed = true := by
  cases i with
  | config klen => exact Laws.Encodes.config klen
  | expand kbytes => exact Laws.Encodes.expand kbytes
  | mulx b n => exact Laws.Encodes.mulx b n
  | wrCmd v => exact Laws.Encodes.wrCmd v
  | wrKey k v => exact Laws.Encodes.wrKey k v
  | rdStatus => exact Laws.Encodes.rdStatus
  | rdCfg => exact Laws.Encodes.rdCfg
  | rdMulxRes => exact Laws.Encodes.rdMulxRes
  | rdRk w => exact Laws.Encodes.rdRk w

/-- Settles O2: a well-formed instruction has a pattern, and the two directions are inverse. -/
theorem encodedInstructionsDecodeBack : Obligations.EncodedInstructionsDecodeBack := by
  intro i hi
  obtain ⟨c, hc⟩ := (encode_isSome_iff i).2 hi
  exact ⟨c, hc, (decode_ok_iff c i).2 hc⟩

/-- Settles O3, the same two facts read the other way. -/
theorem decodedPatternsEncodeBack : Obligations.DecodedPatternsEncodeBack := by
  intro c i h
  have hc := (decode_ok_iff c i).1 h
  exact ⟨(encode_isSome_iff i).1 ⟨c, hc⟩, hc⟩

/-- Settles O1: each sample is written bit by bit, so decoding it is a computation. -/
theorem sampleWordsDecode : Obligations.SampleWordsDecode := by
  unfold Obligations.SampleWordsDecode
  decide

/-! ### Command words -/

/-- A bitwise AND of packed Words acts byte by byte. -/
theorem pack_and_pack (a m : Word) :
    pack a &&& pack m = pack ⟨a.b0 &&& m.b0, a.b1 &&& m.b1, a.b2 &&& m.b2, a.b3 &&& m.b3⟩ :=
  calc pack a &&& pack m
    _ = (a.b0 ++ a.b1 ++ a.b2 &&& m.b0 ++ m.b1 ++ m.b2) ++ (a.b3 &&& m.b3) := BitVec.and_append
    _ = _ := by rw [BitVec.and_append, BitVec.and_append, pack]

theorem pack_inj (a c : Word) : pack a = pack c ↔ a = c :=
  ⟨fun h => by rw [← unpack_pack a, h, unpack_pack], congrArg pack⟩

/-- A mask and match of a word, as masks and matches of its bytes. -/
theorem and_pack_eq_iff (v : Reg32) (m c : Word) : v &&& pack m = pack c ↔
    (unpack v).b0 &&& m.b0 = c.b0 ∧ (unpack v).b1 &&& m.b1 = c.b1 ∧
      (unpack v).b2 &&& m.b2 = c.b2 ∧ (unpack v).b3 &&& m.b3 = c.b3 := by
  cases c
  rw [← pack_unpack v, pack_and_pack, pack_inj, Word.mk.injEq, unpack_pack]

/-- The words that decode to a CONFIG: the lower half-word is fixed, the upper one free. -/
theorem decodeCommand_isConfig_iff (v : Reg32) :
    (∃ klen, decodeCommand v = .ok (.config klen)) ↔ v.toNat % 65536 = 1 := by
  have hv := v.isLt
  simp only [decodeCommand_config_iff]
  exact ⟨fun ⟨k, hk, h⟩ => by omega, fun h => ⟨v.toNat / 65536, by omega, by omega⟩⟩

/-- The words that decode to an EXPAND: only byte 1 is free. -/
theorem decodeCommand_isExpand_iff (v : Reg32) :
    (∃ kbytes, decodeCommand v = .ok (.expand kbytes)) ↔ v.toNat / 65536 = 0 ∧ v.toNat % 256 = 2 := by
  simp only [decodeCommand_expand_iff]
  exact ⟨fun ⟨k, hk, h⟩ => by omega, fun h => ⟨v.toNat / 256, by omega, by omega⟩⟩

/-- The words that decode to a MULX: bytes 1 and 2 are free. -/
theorem decodeCommand_isMulx_iff (v : Reg32) :
    (∃ b n, decodeCommand v = .ok (.mulx b n)) ↔ v.toNat / 16777216 = 0 ∧ v.toNat % 256 = 3 := by
  simp only [decodeCommand_mulx_iff]
  constructor
  · rintro ⟨b, n, hn, h⟩
    have hb := b.isLt
    omega
  · intro h
    refine ⟨BitVec.ofNat 8 (v.toNat / 256), v.toNat / 65536, by omega, ?_⟩
    rw [BitVec.toNat_ofNat]
    omega

/-- Settles O4: each mask keeps some bytes of the word whole and drops the others. -/
theorem commandSelectedByMaskAndMatch : Obligations.CommandSelectedByMaskAndMatch := by
  intro v
  have hv := v.isLt
  have hkeep (b : Byte) : b &&& 0xFF#8 = b := BitVec.and_allOnes
  have hdrop (b : Byte) : b &&& 0x00#8 = 0 := BitVec.and_zero
  refine ⟨(decodeCommand_isConfig_iff v).trans (.trans ?_ (and_pack_eq_iff v ⟨0, 0, 0xFF, 0xFF⟩ ⟨0, 0, 0, 1⟩).symm),
    (decodeCommand_isExpand_iff v).trans (.trans ?_ (and_pack_eq_iff v ⟨0xFF, 0xFF, 0, 0xFF⟩ ⟨0, 0, 0, 2⟩).symm),
    (decodeCommand_isMulx_iff v).trans (.trans ?_ (and_pack_eq_iff v ⟨0xFF, 0, 0, 0xFF⟩ ⟨0, 0, 0, 3⟩).symm)⟩
  all_goals
    simp only [BitVec.ofNat_eq_ofNat, hkeep, hdrop, unpack, extract_eq_iff, BitVec.toNat_ofNat, true_and]
    omega

/-- Settles O5: the operands as digits of the word's number. -/
theorem commandOperandsArePlainFields : Obligations.CommandOperandsArePlainFields := by
  intro v
  refine ⟨fun klen h => ?_, fun kbytes h => ?_, fun b n h => ?_⟩
  · obtain ⟨hk, hv⟩ := (decodeCommand_config_iff v klen).1 h
    omega
  · obtain ⟨hk, hv⟩ := (decodeCommand_expand_iff v kbytes).1 h
    omega
  · have hb := b.isLt
    obtain ⟨hn, hv⟩ := (decodeCommand_mulx_iff v b n).1 h
    omega

/-- The digits of the words that are no command: `OP`, then the reserved bits of its format (R76). -/
def IllegalDigits (n : Nat) : Prop :=
  n % 16 = 0 ∨ 4 ≤ n % 16 ∨ (n % 16 = 1 ∧ n / 16 % 4096 ≠ 0) ∨
    (n % 16 = 2 ∧ (n / 65536 ≠ 0 ∨ n / 16 % 16 ≠ 0)) ∨ (n % 16 = 3 ∧ (n / 16777216 ≠ 0 ∨ n / 16 % 16 ≠ 0))

/-- Decoding refuses exactly the words of R76: those that none of the three rows selects. -/
theorem decodeCommand_error_iff (v : Reg32) : (∃ r, decodeCommand v = .error r) ↔ IllegalDigits v.toNat := by
  have hrows : (∃ r, decodeCommand v = .error r) ↔ ¬ ((∃ klen, decodeCommand v = .ok (.config klen)) ∨
      (∃ kbytes, decodeCommand v = .ok (.expand kbytes)) ∨ ∃ b n, decodeCommand v = .ok (.mulx b n)) := by
    match decodeCommand v with
    | .error r => simp
    | .ok (.config klen) => simp
    | .ok (.expand kbytes) => simp
    | .ok (.mulx b n) => simp
  rw [hrows, decodeCommand_isConfig_iff, decodeCommand_isExpand_iff, decodeCommand_isMulx_iff, IllegalDigits]
  omega

/-- Settles O32: a word of R76 decodes to no command, and the CMD write that carries it only writes the code. -/
theorem illegalWordsHaveNoOtherEffect : Obligations.IllegalWordsHaveNoOtherEffect := by
  intro v s hf hv
  obtain ⟨r, hr⟩ := (decodeCommand_error_iff v).2 hv
  exact execWrCmd_of_error hf hr

/-! ### Host transactions -/

/-- A transaction performs a write row exactly when it has the row's form. -/
theorem decodeTxn_write_iff {i : Instr} {r : Reg} {v : Reg32} (h : portForm i = some (true, r, some v)) (t : BusTxn) :
    decodeTxn t = .ok i ↔ t.we = true ∧ t.size = 2 ∧ t.addr = r.offset ∧ t.wdata = v := by
  rw [decodeTxn_ok_iff, h]
  cases t.we <;> simp [eq_comm, and_comm]

/-- A transaction performs a read row exactly when it has the row's form. -/
theorem decodeTxn_read_iff {i : Instr} {r : Reg} (h : portForm i = some (false, r, none)) (t : BusTxn) :
    decodeTxn t = .ok i ↔ t.we = false ∧ t.size = 2 ∧ t.addr = r.offset := by
  rw [decodeTxn_ok_iff, h]
  cases t.we <;> simp

/-- The address of a key latch as a number. -/
theorem eq_key_offset_iff (a : BitVec 10) (k : Fin 8) : a = (Reg.key k).offset ↔ a.toNat = 0x020 + 4 * k.val := by
  have hk := k.isLt
  rw [← BitVec.toNat_inj, Reg.offset, BitVec.toNat_ofNat, Nat.mod_eq_of_lt (by omega)]

/-- The address of a round-key word as a number. -/
theorem eq_rk_offset_iff (a : BitVec 10) (w : Fin 60) : a = (Reg.rk w).offset ↔ a.toNat = 0x100 + 4 * w.val := by
  have hw := w.isLt
  rw [← BitVec.toNat_inj, Reg.offset, BitVec.toNat_ofNat, Nat.mod_eq_of_lt (by omega)]

/-- Settles O6: each row's form, with the register's address. -/
theorem admittedTransactionForms : Obligations.AdmittedTransactionForms := by
  intro t
  refine ⟨fun v => decodeTxn_write_iff (r := .cmd) rfl t, fun k v => ?_, decodeTxn_read_iff (r := .status) rfl t,
    decodeTxn_read_iff (r := .cfg) rfl t, decodeTxn_read_iff (r := .mulxRes) rfl t, fun w => ?_,
    decodeTxn_ne_command t⟩
  · rw [← eq_key_offset_iff]
    exact decodeTxn_write_iff rfl t
  · rw [← eq_rk_offset_iff]
    exact decodeTxn_read_iff rfl t

/-- With a pattern's transaction presented, the next step runs what the pattern decodes to. -/
theorem step_presentTxn_of_decode {c : Code} {i : Instr} (h : decode c = .ok i) (s : State) :
    step (presentTxn (txnOfCode c) s) = exec i { s with rst := false } := by
  cases c with
  | command v =>
    obtain ⟨c, rfl, hc⟩ := (decode_command_iff v i).1 h
    exact stepRunsCarriedCommand _ v s.pending c rfl rfl hc
  | hostWrite p => exact step_txn_ok rfl rfl ((decode_hostWrite_iff p i).1 h).2
  | hostRead p => exact step_txn_ok rfl rfl ((decode_hostRead_iff p i).1 h).2

/-- A table word that is a pattern is presented as that pattern. -/
theorem presentTableWord_of_code {nbits w : Nat} {c : Code} (h : codeOfTableWord nbits w = some c) (s : State) :
    presentTableWord nbits w s = presentTxn (txnOfCode c) s := by
  unfold codeOfTableWord at h
  unfold presentTableWord
  split_ifs at h ⊢ <;> cases h <;> rfl

/-- A table word that decodes is a pattern that decodes. -/
theorem decodeTableWord_some {nbits w : Nat} {i : Instr} (h : decodeTableWord nbits w = some i) :
    ∃ c, codeOfTableWord nbits w = some c ∧ decode c = .ok i := by
  unfold decodeTableWord at h
  split at h
  · cases h
  · next c hc =>
    split at h
    · next j hj =>
      cases h
      exact ⟨c, hc, hj⟩
    · cases h

/-- Settles O10: a table word that decodes is presented as its pattern. -/
theorem presentedWordRunsNext : Obligations.PresentedWordRunsNext := by
  intro s nbits w i h
  obtain ⟨c, hc, hi⟩ := decodeTableWord_some h
  rw [State.withFetchWord, presentTableWord_of_code hc]
  exact step_presentTxn_of_decode hi s

/-! ### Pseudo-instructions -/

/-- An operand shifted into place above the fields of `y`, as a number. -/
theorem shifted_or_toNat {k : Nat} {y : Reg32} (i : Nat) (hk : k * 2 ^ i < 2 ^ 32) (hy : y.toNat < 2 ^ i) :
    (BitVec.ofNat 32 k <<< i ||| y).toNat = k * 2 ^ i + y.toNat := by
  have hk' : (BitVec.ofNat 32 k).toNat = k :=
    Nat.mod_eq_of_lt ((Nat.le_mul_of_pos_right k (Nat.two_pow_pos i)).trans_lt hk)
  rw [BitVec.toNat_or, BitVec.toNat_shiftLeft, hk', Nat.shiftLeft_eq, Nat.mod_eq_of_lt hk, ← Nat.shiftLeft_eq,
    Nat.shiftLeft_add_eq_or_of_lt hy]

/-- A pseudo-instruction that shifts its operands into place agrees with the encoder: it writes the command's number for
operands in range and is refused for the others (R80). -/
theorem pseudo_eq_encode (c : Command) {w : Reg32} (hw : c.wellFormed = true → encodeCommand c = some w) :
    (if c.wellFormed then some [cmdLine w] else none) = (encodeCommand c).map fun v => [cmdLine v] := by
  cases h : c.wellFormed with
  | true => simp [hw h]
  | false => simp [encodeCommand, h]

theorem pseudoLines_config (bits : Nat) :
    pseudoLines (.config bits) = (encodeCommand (.config bits)).map fun v => [cmdLine v] := by
  rw [← pseudo_eq_encode (.config bits) (w := BitVec.ofNat 32 bits <<< 16 ||| 0x1) fun h => ?_]
  · simp [pseudoLines, Command.wellFormed]
  · have hbits : bits < 65536 := of_decide_eq_true h
    rw [encodeCommand_eq_some_iff, shifted_or_toNat 16 (by omega) (by decide)]
    exact ⟨h, rfl⟩

theorem pseudoLines_expand (kbytes : Nat) :
    pseudoLines (.expand kbytes) = (encodeCommand (.expand kbytes)).map fun v => [cmdLine v] := by
  rw [← pseudo_eq_encode (.expand kbytes) (w := BitVec.ofNat 32 kbytes <<< 8 ||| 0x2) fun h => ?_]
  · simp [pseudoLines, Command.wellFormed]
  · have hkbytes : kbytes < 256 := of_decide_eq_true h
    rw [encodeCommand_eq_some_iff, shifted_or_toNat 8 (by omega) (by decide)]
    exact ⟨h, rfl⟩

theorem pseudoLines_mulx (b : Byte) (n : Nat) :
    pseudoLines (.mulx b.toNat n) = (encodeCommand (.mulx b n)).map fun v => [cmdLine v] := by
  have hb := b.isLt
  rw [← pseudo_eq_encode (.mulx b n) (w := BitVec.ofNat 32 n <<< 16 ||| BitVec.ofNat 32 b.toNat <<< 8 ||| 0x3)
    fun h => ?_]
  · simp [pseudoLines, Command.wellFormed, hb]
  · have hn : n < 256 := of_decide_eq_true h
    have hlow : (BitVec.ofNat 32 b.toNat <<< 8 ||| 0x3 : Reg32).toNat = b.toNat * 256 + 3 :=
      shifted_or_toNat 8 (by omega) (by decide)
    rw [encodeCommand_eq_some_iff, BitVec.or_assoc, shifted_or_toNat 16 (by omega) (by omega), hlow]
    exact ⟨h, (Nat.add_assoc ..).symm⟩

/-- Words for latches past KEY7 are refused. -/
theorem keyLines_eq_none {i : Nat} {ks : List Reg32} (hi : i ≤ 8) (h : 8 < i + ks.length) : keyLines i ks = none := by
  induction ks generalizing i with
  | nil => simp at h; omega
  | cons v vs ih =>
    rw [keyLines]
    split
    · rw [ih (by omega) (by simp at h; omega)]
      rfl
    · rfl

/-- The lines of `loadkey`: the word at place `j` goes to latch `i + j`. -/
theorem keyLines_eq_some {i : Nat} {ks : List Reg32} (h : i + ks.length ≤ 8) :
    ∃ lines, keyLines i ks = some lines ∧ lines.length = ks.length ∧
      ∀ (j : Nat) (k : Fin 8) (v : Reg32), k.val = i + j → ks[j]? = some v →
        lines[j]? = some (.wr (.named (.key k)) v) := by
  induction ks generalizing i with
  | nil => exact ⟨[], rfl, rfl, by simp⟩
  | cons u us ih =>
    rw [List.length_cons] at h
    have hi : i < 8 := by omega
    obtain ⟨lines, hlines, hlen, hget⟩ := ih (i := i + 1) (by omega)
    refine ⟨.wr (.named (.key ⟨i, hi⟩)) u :: lines, by simp [keyLines, hi, hlines], by simp [hlen], ?_⟩
    intro j k v hk hv
    cases j with
    | zero =>
      obtain rfl : k = ⟨i, hi⟩ := Fin.ext hk
      simpa using hv
    | succ j => exact hget j k v (by omega) hv

/-- Settles O7: the command's word for the first three, the latches in order for `loadkey`. -/
theorem pseudoInstructionExpansions : Obligations.PseudoInstructionExpansions := by
  refine ⟨pseudoLines_config, pseudoLines_expand, pseudoLines_mulx, fun b n hb => ?_, fun ks hks => ?_,
    fun ks hne hlen => ?_⟩
  · exact if_neg (by omega)
  · obtain rfl | hlong := hks
    · rfl
    · rw [pseudoLines, keyLines_eq_none (Nat.zero_le 8) (by omega), ite_self]
  · obtain ⟨lines, hlines, hlength, hget⟩ := keyLines_eq_some (i := 0) (ks := ks) (by omega)
    exact ⟨lines, (if_neg hne).trans hlines, hlength, fun k v hv => hget k.val k v (Nat.zero_add _).symm hv⟩

end Sys2Proof.Machine
end

section
/-! PROOFS. The multiplier and MULX (40_gf_multiplier.md): a doubling is linear and has an inverse; a sum of iterates
that annihilates 1 annihilates every byte; two such sums give the period 51, and that no shorter one fixes a byte but
0. -/

namespace Sys2Proof.Machine

/-! ### One doubling -/

/-- A doubling as a number. -/
theorem xtime_toNat (b : Byte) :
    (xtime b).toNat = if b.toNat > 127 then (2 * b.toNat % 256) ^^^ 0x1B else 2 * b.toNat := by
  rw [xtime]
  split
  · rw [BitVec.toNat_xor, BitVec.toNat_shiftLeft, Nat.shiftLeft_eq, Nat.mul_comm]
    rfl
  · rw [BitVec.toNat_shiftLeft, Nat.shiftLeft_eq]
    omega

/-- Settles O41. -/
theorem doublingIsReducedShift : Obligations.DoublingIsReducedShift := xtime_toNat

theorem xtime_zero : xtime 0 = 0 := rfl

/-- A doubling by the high bit. -/
theorem xtime_eq_msb (b : Byte) : xtime b = (b <<< 1) ^^^ (if b.msb then 0x1B else 0) := by
  have hmsb : b.msb = decide (b.toNat > 127) := BitVec.msb_eq_decide b
  rw [xtime, hmsb]
  split <;> simp [*]

/-- A doubling is linear: the shift is, and two reductions cancel. -/
theorem xtime_xor (a b : Byte) : xtime (a ^^^ b) = xtime a ^^^ xtime b := by
  have hreduce (p q : Bool) : (if p ^^ q then 0x1B else 0 : Byte) =
      (if p then 0x1B else 0) ^^^ (if q then 0x1B else 0) := by
    revert p q
    decide
  rw [xtime_eq_msb, xtime_eq_msb, xtime_eq_msb, BitVec.msb_xor, BitVec.shiftLeft_xor_distrib, hreduce]
  ac_rfl

theorem half_toNat (c : Byte) : (c >>> 1).toNat = c.toNat / 2 := by
  rw [BitVec.toNat_ushiftRight, Nat.shiftRight_eq_div_pow]

/-- An even byte is the doubling of its half. -/
theorem xtime_half {c : Byte} (h : c.toNat % 2 = 0) : xtime (c >>> 1) = c := by
  apply BitVec.eq_of_toNat_eq
  rw [xtime_toNat, half_toNat, if_neg (by omega)]
  omega

/-- The high bit of a half is free, so setting it is an XOR. -/
theorem half_or_high_eq_xor (d : Byte) : d >>> 1 ||| (0x80 : Byte) = d >>> 1 ^^^ (0x80 : Byte) := by
  have hhigh : (0x80 : Byte) = BitVec.twoPow 8 7 := rfl
  ext i hi
  rw [hhigh, BitVec.getElem_or, BitVec.getElem_xor, BitVec.getElem_twoPow]
  obtain rfl | hlow := eq_or_ne i 7
  · simp
  · simp [hlow]

/-- An odd byte is a doubling that reduces, by the inverse of R104. -/
theorem xtime_reduced_half {c : Byte} (h : c.toNat % 2 = 1) : xtime (((c ^^^ 0x1B) >>> 1) ||| 0x80) = c := by
  have heven : (c ^^^ 0x1B).toNat % 2 = 0 := by
    rw [BitVec.toNat_xor, Nat.xor_mod_two_eq]
    have h1B : (0x1B : Byte).toNat = 27 := rfl
    omega
  calc xtime (((c ^^^ 0x1B) >>> 1) ||| 0x80)
      = xtime ((c ^^^ 0x1B) >>> 1) ^^^ xtime 0x80 := by rw [half_or_high_eq_xor, xtime_xor]
    _ = c ^^^ 0x1B ^^^ 0x1B := by rw [xtime_half heven]; rfl
    _ = c := by rw [BitVec.xor_assoc, BitVec.xor_self, BitVec.xor_zero]

/-- A property of 1 that XOR and doubling keep holds of every byte. -/
theorem byte_induction {P : Byte → Prop} (one : P 1) (xor : ∀ a b, P a → P b → P (a ^^^ b))
    (double : ∀ b, P b → P (xtime b)) (b : Byte) : P b := by
  induction hk : b.toNat using Nat.strong_induction_on generalizing b with
  | _ k ih =>
    have heven {c : Byte} (hc : c.toNat % 2 = 0) (hle : c.toNat ≤ k) : P c := by
      obtain hzero | hpos := Nat.eq_zero_or_pos c.toNat
      · rw [BitVec.eq_of_toNat_eq (y := 1 ^^^ 1) hzero]
        exact xor 1 1 one one
      · rw [← xtime_half hc]
        refine double _ (ih _ ?_ _ rfl)
        rw [half_toNat]
        omega
    obtain h0 | h1 := Nat.mod_two_eq_zero_or_one b.toNat
    · exact heven h0 hk.le
    · have hclear : (b ^^^ 1).toNat = b.toNat - 1 := by
        rw [BitVec.toNat_xor]
        exact Nat.xor_one_of_odd (Nat.odd_iff.2 h1)
      have hb : b = (b ^^^ 1) ^^^ 1 := by rw [BitVec.xor_assoc, BitVec.xor_self, BitVec.xor_zero]
      rw [hb]
      exact xor _ _ (heven (by omega) (by omega)) one

/-! ### Iterates -/

/-- Iterates are those of Mathlib. -/
theorem multByX_eq_iterate (b : Byte) (n : Nat) : multByX b n = xtime^[n] b := by
  induction n with
  | zero => rfl
  | succ n ih => rw [multByX, ih, Function.iterate_succ_apply']

theorem isPeriodicPt_iff {n : Nat} {b : Byte} : Function.IsPeriodicPt xtime n b ↔ multByX b n = b := by
  rw [multByX_eq_iterate]
  rfl

theorem multByX_zero_byte (n : Nat) : multByX 0 n = 0 := by
  induction n with
  | zero => rfl
  | succ n ih => rw [multByX, ih, xtime_zero]

theorem multByX_xor (a b : Byte) (n : Nat) : multByX (a ^^^ b) n = multByX a n ^^^ multByX b n := by
  induction n with
  | zero => rfl
  | succ n ih => rw [multByX, ih, xtime_xor, multByX, multByX]

/-- The XOR of the iterates of a byte at the listed counts: a polynomial in the doubling, by its exponents. -/
def iterateSum (b : Byte) : List Nat → Byte
  | [] => 0
  | n :: ns => multByX b n ^^^ iterateSum b ns

theorem iterateSum_xor (a b : Byte) (ns : List Nat) :
    iterateSum (a ^^^ b) ns = iterateSum a ns ^^^ iterateSum b ns := by
  induction ns with
  | nil => exact (BitVec.xor_self (x := 0)).symm
  | cons n ns ih =>
    simp only [iterateSum, multByX_xor, ih]
    ac_rfl

theorem iterateSum_xtime (b : Byte) (ns : List Nat) : iterateSum (xtime b) ns = xtime (iterateSum b ns) := by
  induction ns with
  | nil => rfl
  | cons n ns ih => rw [iterateSum, ih, ← multByX_succ_inside, multByX, ← xtime_xor, iterateSum]

/-- A sum of iterates that annihilates 1 annihilates every byte. -/
theorem iterateSum_eq_zero {ns : List Nat} (h : iterateSum 1 ns = 0) (b : Byte) : iterateSum b ns = 0 := by
  induction b using byte_induction with
  | one => exact h
  | xor a b ha hb => rw [iterateSum_xor, ha, hb]; rfl
  | double b hb => rw [iterateSum_xtime, hb, xtime_zero]

/-- A byte is the XOR of its iterates at 17 and 34: `1 + x ^ 17 + x ^ 34` annihilates 1. -/
theorem multByX_17_xor_34 (b : Byte) : multByX b 17 ^^^ multByX b 34 = b := by
  have hsum : iterateSum b [0, 17, 34] = 0 := iterateSum_eq_zero (by decide) b
  simp only [iterateSum, BitVec.ofNat_eq_ofNat, BitVec.xor_zero] at hsum
  exact (BitVec.xor_eq_zero_iff.1 hsum).symm

/-- 51 is a period of every byte: its iterate at 17 is the sum of those at 34 and 51 as well. -/
theorem isPeriodicPt_51 (b : Byte) : Function.IsPeriodicPt xtime 51 b := by
  have hnext : multByX b 34 ^^^ multByX b 51 = multByX b 17 := by
    rw [← multByX_17_xor_34 (multByX b 17), multByX_multByX, multByX_multByX]
  rw [isPeriodicPt_iff]
  calc multByX b 51
      = multByX b 34 ^^^ (multByX b 34 ^^^ multByX b 51) := by
        rw [← BitVec.xor_assoc, BitVec.xor_self, BitVec.zero_xor]
    _ = multByX b 17 ^^^ multByX b 34 := by rw [hnext, BitVec.xor_comm]
    _ = b := multByX_17_xor_34 b

/-- 17 doublings fix only 0: a fixed byte is the XOR of two copies of itself. -/
theorem eq_zero_of_isPeriodicPt_17 {b : Byte} (h : Function.IsPeriodicPt xtime 17 b) : b = 0 := by
  have h34 : multByX b 34 = b := isPeriodicPt_iff.1 (h.trans_dvd (by decide))
  calc b = multByX b 17 ^^^ multByX b 34 := (multByX_17_xor_34 b).symm
    _ = b ^^^ b := by rw [isPeriodicPt_iff.1 h, h34]
    _ = 0 := BitVec.xor_self

/-- 3 doublings fix only 0: `1 + x ^ 9 + x ^ 12 + x ^ 15 + x ^ 24` annihilates every byte, and is five copies of a fixed
one. -/
theorem eq_zero_of_isPeriodicPt_3 {b : Byte} (h : Function.IsPeriodicPt xtime 3 b) : b = 0 := by
  have hsum : iterateSum b [0, 9, 12, 15, 24] = 0 := iterateSum_eq_zero (by decide) b
  have hfix {n : Nat} (hn : 3 ∣ n) : multByX b n = b := isPeriodicPt_iff.1 (h.trans_dvd hn)
  simpa [iterateSum, hfix] using hsum

/-- A proper divisor of 51 divides 3 or 17. -/
theorem gcd_51_dvd : ∀ n : Nat, n ≤ 50 → 1 ≤ n → n.gcd 51 ∣ 3 ∨ n.gcd 51 ∣ 17 := by decide

/-- No count below 51 fixes a byte but 0: what a count and 51 fix, their greatest common divisor fixes. -/
theorem multByX_ne_self {b : Byte} {n : Nat} (hb : b ≠ 0) (h1 : 1 ≤ n) (h50 : n ≤ 50) : multByX b n ≠ b := by
  intro hfix
  have hgcd : Function.IsPeriodicPt xtime (n.gcd 51) b := (isPeriodicPt_iff.2 hfix).gcd (isPeriodicPt_51 b)
  obtain h3 | h17 := gcd_51_dvd n h50 h1
  · exact hb (eq_zero_of_isPeriodicPt_3 (hgcd.trans_dvd h3))
  · exact hb (eq_zero_of_isPeriodicPt_17 (hgcd.trans_dvd h17))

/-- A doubling is undone by fifty more. -/
theorem xtime_injective : Function.Injective xtime :=
  Function.LeftInverse.injective (g := (multByX · 50)) fun b =>
    (multByX_succ_inside b 50).symm.trans (isPeriodicPt_iff.1 (isPeriodicPt_51 b))

/-- Settles O42: the inverse of R104 is a right inverse by the parity of the result, and a doubling is injective. -/
theorem multiplierLaws : Obligations.MultiplierLaws := by
  refine ⟨multByX_multByX, fun b c => ?_, fun b n => ?_, fun b n hb h1 h50 => multByX_ne_self hb h1 h50⟩
  · have hinv : xtime (if c.toNat % 2 = 0 then c >>> 1 else ((c ^^^ 0x1B) >>> 1) ||| 0x80) = c := by
      split
      · next h => exact xtime_half h
      · next h => exact xtime_reduced_half (Nat.mod_two_ne_zero.1 h)
    exact ⟨fun h => xtime_injective (h.trans hinv.symm), fun h => h ▸ hinv⟩
  · rw [Nat.add_comm, ← multByX_multByX, isPeriodicPt_iff.1 (isPeriodicPt_51 b)]

/-! ### MULX -/

/-- MULX from an unlocked state. -/
theorem exec_mulx_unlocked {s : State} (hf : s.block.fatal = false) (b : Byte) (n : Nat) :
    exec (.mulx b n) s = .next { s with
      block := { s.block with mulxRes := multByX b n, err := .none },
      outcomes := s.outcomes ++ [.writeOk] } :=
  underLock_unlocked (performMulx b n) s hf

/-- Settles O40: 255 is a multiple of the period. -/
theorem mulxResult : Obligations.MulxResult :=
  ⟨fun b n _ hf => exec_mulx_unlocked hf b n, fun _ => rfl, multByX_zero_byte, rfl,
    fun b => isPeriodicPt_iff.1 ((isPeriodicPt_51 b).trans_dvd (by decide))⟩

/-- Settles O43: the short-circuit of the round constant agrees with the multiplier. -/
theorem mulxGivesTheRoundConstant : Obligations.MulxGivesTheRoundConstant := by
  intro m s _ _ hf
  have hrcon : rcon m = multByX 0x01 (m - 1) := rcon_path m
  exact ⟨hrcon, hrcon ▸ exec_mulx_unlocked hf 0x01 (m - 1)⟩

end Sys2Proof.Machine
end

section
/-! PROOFS. CONFIG for every key length, and runs of CMD writes under the fatal lock (41_configuration.md). -/

namespace Sys2Proof.Machine

/-- The rows of the table (41_configuration.md R110). -/
theorem keyParams_eq_some_of_mem_table :
    ∀ p ∈ [(128, ((4 : BitVec 4), (10 : BitVec 4))), (192, (6, 12)), (256, (8, 14))],
      keyParams p.1 = some p.2 := by decide

/-- An unlocked CONFIG with a length of the table, written out (41_configuration.md R111). -/
theorem exec_config_supported {s : State} (hf : s.block.fatal = false) {klen : Nat} {p : BitVec 4 × BitVec 4}
    (hp : keyParams klen = some p) :
    exec (.config klen) s = .next { s with
      block := { s.block with nk := p.1, nr := p.2, cfgValid := true, schedValid := false, err := .none },
      outcomes := s.outcomes ++ [.writeOk] } := by
  rw [exec_config_unlocked hf, configBlock_of_some _ hp]
  rfl

/-- An unlocked CONFIG with any other length, written out (41_configuration.md R112). -/
theorem exec_config_unsupported {s : State} (hf : s.block.fatal = false) {klen : Nat} (hp : keyParams klen = none) :
    exec (.config klen) s = .next { s with
      block := { s.block with
        fatal := true, cfgValid := false, nk := 0, nr := 0, schedValid := false, err := .badKeylen },
      outcomes := s.outcomes ++ [.writeOk] } := by
  rw [exec_config_unlocked hf, configBlock_of_none _ hp]
  rfl

/-- Settles O27: the length has a row of the table, or none. -/
theorem configSetsKeyLength : Obligations.ConfigSetsKeyLength := by
  refine fun klen s hf => ⟨?_, fun h1 h2 h3 => ?_⟩
  · rintro p hp rfl
    exact exec_config_supported hf (keyParams_eq_some_of_mem_table p hp)
  · exact exec_config_unsupported hf ((keyParams_eq_none_iff klen).2 ⟨h1, h2, h3⟩)

/-- A step on a CMD write under the lock: the word is not looked at (60_exceptions.md R155). -/
theorem step_cmdWrite_locked {s : State} {v : Reg32} {rest : List PortEvent} (hf : s.block.fatal = true)
    (hr : s.rst = false) (hp : s.pending = .txn (cmdWriteTxn v) :: rest) :
    step s = .next { s with
      block := { s.block with err := .locked }, pending := rest, outcomes := s.outcomes ++ [.writeOk] } := by
  rw [step_txn_ok hp hr ((decodeTxn_wrCmd_iff _ v).2 rfl)]
  exact underLock_locked (performWord v) { s with pending := rest } hf

/-- A run of one or more CMD writes under the lock leaves the code `LOCKED` and the outcomes (60_exceptions.md R154,
R155). -/
theorem run_cmdWrites_locked (v : Reg32) (vs : List Reg32) {s : State} (hf : s.block.fatal = true)
    (hr : s.rst = false) (hp : s.pending = (v :: vs).map fun a => .txn (cmdWriteTxn a)) :
    Host.Core.run core (v :: vs).length s = .next { s with
      block := { s.block with err := .locked }, pending := [],
      outcomes := s.outcomes ++ (v :: vs).map fun _ => .writeOk } := by
  induction vs generalizing v s with
  | nil => exact run_succ 0 (step_cmdWrite_locked hf hr hp)
  | cons v' vs ih =>
    rw [List.length_cons, run_succ _ (step_cmdWrite_locked hf hr hp)]
    refine (ih v' ?_ ?_ ?_).trans (by simp)
    · exact hf
    · exact hr
    · rfl

/-- Settles O28: the bad CONFIG enters the lock with `rst` still low, and the run goes on from there. -/
theorem badKeyLengthLocksUntilReset : Obligations.BadKeyLengthLocksUntilReset := by
  intro klen s t words hf hr h1 h2 h3 hexec hp hne
  rw [exec_config_unsupported hf ((keyParams_eq_none_iff klen).2 ⟨h1, h2, h3⟩)] at hexec
  obtain ⟨v, vs, rfl⟩ := List.exists_cons_of_ne_nil hne
  cases hexec
  exact run_cmdWrites_locked v vs rfl hr hp

end Sys2Proof.Machine
end

section
/-! PROOFS. The key expansion and EXPAND (42_key_expansion.md): one iteration of the loop as an equation on the
finished schedule, the recurrence that follows, what of the latches it reads, and the outcomes of EXPAND. -/

namespace Sys2Proof.Machine

/-! ### The branch of an iteration -/

theorem branch_round {nk w : Nat} (sbox : Byte → Byte) (a : Word) (h : w % nk = 0) :
    branch sbox nk w a = roundBranch sbox (w / nk) a := if_pos h

theorem branch_substitution {nk w : Nat} (sbox : Byte → Byte) (a : Word) (hnk : 6 < nk) (h : w % nk = 4) :
    branch sbox nk w a = subWord sbox a := by simp [branch, hnk, h]

theorem branch_neither {nk w : Nat} (sbox : Byte → Byte) (a : Word) (h0 : w % nk ≠ 0)
    (h4 : ¬(6 < nk ∧ w % nk = 4)) : branch sbox nk w a = a := by
  rw [branch, if_neg h0, if_neg h4]

/-- The round branch byte by byte, its constant as an iterate of the doubling (R121, R125). -/
theorem roundBranch_eq (sbox : Byte → Byte) (m : Nat) (a : Word) : roundBranch sbox m a =
    ⟨sbox a.b1 ^^^ multByX 0x01 (m - 1), sbox a.b2, sbox a.b3, sbox a.b0⟩ := by
  have hrcon : rcon m = multByX 0x01 (m - 1) := rcon_path m
  rw [roundBranch, hrcon]
  rfl

/-- Settles O44. -/
theorem roundConstantValues : Obligations.RoundConstantValues := by
  unfold Obligations.RoundConstantValues
  decide

/-- Up to `Nk = 6` no word takes the substitution branch (R126). -/
theorem branch_of_le_six {nk : Nat} (sbox : Byte → Byte) (w : Nat) (a : Word) (h : nk ≤ 6) :
    branch sbox nk w a = if w % nk = 0 then roundBranch sbox (w / nk) a else a := by
  simp [branch, Nat.not_lt.2 h]

theorem branch_eight (sbox : Byte → Byte) (w : Nat) (a : Word) : branch sbox 8 w a =
    if w % 8 = 0 then roundBranch sbox (w / 8) a else if w % 8 = 4 then subWord sbox a else a := by
  simp [branch]

/-- Settles O51: R130's lists are the multiples of `Nk`, and for `Nk = 8` the words 4 beyond one. -/
theorem branchPositions : Obligations.BranchPositions := by
  intro sbox w a
  refine ⟨fun hlo hhi => ?_, fun hlo hhi => ?_, fun hlo hhi => ?_⟩
  · have hround : w ∈ [4, 8, 12, 16, 20, 24, 28, 32, 36, 40] ↔ w % 4 = 0 := by
      simp only [List.mem_cons, List.not_mem_nil, or_false]
      omega
    rw [branch_of_le_six sbox w a (by decide)]
    simp only [hround]
  · have hround : w ∈ [6, 12, 18, 24, 30, 36, 42, 48] ↔ w % 6 = 0 := by
      simp only [List.mem_cons, List.not_mem_nil, or_false]
      omega
    rw [branch_of_le_six sbox w a (by decide)]
    simp only [hround]
  · have hround : w ∈ [8, 16, 24, 32, 40, 48, 56] ↔ w % 8 = 0 := by
      simp only [List.mem_cons, List.not_mem_nil, or_false]
      omega
    have hsub : w ∈ [12, 20, 28, 36, 44, 52] ↔ w % 8 = 4 := by
      simp only [List.mem_cons, List.not_mem_nil, or_false]
      omega
    rw [branch_eight]
    simp only [hround, hsub]

/-! ### The loop -/

/-- The word an iteration derives: the branch of the working word, combined with the word `Nk` before (R124, R127). -/
theorem expandIter_w (sbox : Byte → Byte) (nk : Nat) (l : ExpandLoop) :
    (expandIter sbox nk l).w = (branch sbox nk l.word l.w).xor (schedAt l.sched (l.word - nk)) := rfl

/-- The counter starts at `Nk` and counts the iterations (R124). -/
theorem expandIters_start_word (sbox : Byte → Byte) (bytes : List Byte) (nk k : Nat) :
    (expandIters sbox nk k (expandStart bytes nk)).word = nk + k := expandIters_word sbox nk k _

/-- The working word is the schedule word before the one to be derived, as long as the counter is in the schedule
(R123). -/
theorem expandIters_start_w (sbox : Byte → Byte) (bytes : List Byte) {nk k : Nat} (h : nk + k ≤ 60) :
    (expandIters sbox nk k (expandStart bytes nk)).w =
      schedAt (expandIters sbox nk k (expandStart bytes nk)).sched (nk + k - 1) := by
  cases k with
  | zero => rfl
  | succ k =>
    have hword := expandIters_start_word sbox bytes nk k
    rw [expandIters_succ, ← expandIter_sched_self _ _ _ (by omega), hword, Nat.add_succ_sub_one]

/-- A word the loop has derived, from the words of the same schedule (R124, R127): the iteration that derived it read
words that no later iteration changes. -/
theorem expandIters_start_derived (sbox : Byte → Byte) (bytes : List Byte) {nk m w : Nat} (hnk : 0 < nk)
    (hlo : nk ≤ w) (hhi : w < nk + m) (h60 : w < 60) :
    schedAt (expandIters sbox nk m (expandStart bytes nk)).sched w =
      (branch sbox nk w (schedAt (expandIters sbox nk m (expandStart bytes nk)).sched (w - 1))).xor
        (schedAt (expandIters sbox nk m (expandStart bytes nk)).sched (w - nk)) := by
  obtain ⟨k, rfl⟩ := Nat.exists_eq_add_of_le hlo
  have hword := expandIters_start_word sbox bytes nk k
  have hkept {i : Nat} (hi : i < nk + k) :=
    expandIters_sched_stable sbox nk i k m (expandStart bytes nk) hi (by omega)
  have hstored := expandIter_sched_self sbox nk (expandIters sbox nk k (expandStart bytes nk)) (by omega)
  rw [expandIter_w, hword, expandIters_start_w sbox bytes (by omega), ← hkept (by omega), ← hkept (by omega),
    ← expandIters_succ] at hstored
  rw [expandIters_sched_stable sbox nk (nk + k) (k + 1) m _ (Nat.lt_succ_self _) (by omega)]
  exact hstored

/-! ### The expansion -/

/-- `Nb * (Nr + 1)` with `Nb = 4`. -/
theorem scheduleWords_eq (nr : Nat) : scheduleWords nr = 4 * (nr + 1) := rfl

/-- For each pair of R110's table the seed words are part of the schedule, and the schedule fits the storage. -/
theorem tablePair_bounds : ∀ p ∈ [(4, 10), (6, 12), (8, 14)],
    0 < p.1 ∧ p.1 ≤ scheduleWords p.2 ∧ scheduleWords p.2 ≤ 60 := by decide

/-- The words from `Nb * (Nr + 1)` on (R128). -/
theorem keyExpansion_tail (sbox : Byte → Byte) (bytes : List Byte) {nk nr w : Nat} (h : scheduleWords nr ≤ w)
    (h60 : w < 60) : (keyExpansion sbox bytes nk nr)[w] = Word.zero := by
  rw [keyExpansion_get, if_neg (Nat.not_lt.2 h)]

/-- The first `Nk` words are the latches (R122, R132). -/
theorem keyExpansion_seed (sbox : Byte → Byte) (key : Vector Word 8) {nk nr : Nat} (hnr : nk ≤ scheduleWords nr)
    (i : Fin 8) (hi : i.val < nk) :
    (keyExpansion sbox (keyBytes key nk) nk nr)[i.val]'(i.isLt.trans (by decide)) = key[i.val] := by
  have hstart : schedAt (expandStart (keyBytes key nk) nk).sched i.val = key[i.val] := by
    rw [expandStart, seedSchedule_at _ _ _ (by omega), if_pos hi, wordOfBytes_keyBytes key nk i hi]
  rw [keyExpansion_get, if_pos (hi.trans_le hnr), expandIters_sched_below _ _ _ _ _ hi, hstart]

/-- Each later word, by the word before it and the word `Nk` before it (R124, R127). -/
theorem keyExpansion_derived (sbox : Byte → Byte) (bytes : List Byte) {nk nr w : Nat} (hnk : 0 < nk)
    (hlo : nk ≤ w) (hhi : w < scheduleWords nr) (h60 : w < 60) : (keyExpansion sbox bytes nk nr)[w] =
      (branch sbox nk w (keyExpansion sbox bytes nk nr)[w - 1]).xor (keyExpansion sbox bytes nk nr)[w - nk] := by
  rw [keyExpansion_get, keyExpansion_get, keyExpansion_get, if_pos hhi, if_pos (by omega), if_pos (by omega)]
  exact expandIters_start_derived sbox bytes hnk hlo (by omega) h60

/-- Settles O48: every count up to the last keeps the counter within the schedule. -/
theorem workingWordIsPreviousWord : Obligations.WorkingWordIsPreviousWord := by
  intro sbox bytes nk nr k hp hk
  obtain ⟨-, hnr, h60⟩ := tablePair_bounds _ hp
  rw [scheduleWords_eq] at hnr h60
  exact ⟨expandIters_start_word sbox bytes nk k, expandIters_start_w sbox bytes (by omega)⟩

/-- Settles O47: the seed, the derived words by their branch, and the tail. -/
theorem scheduleFollowsTheRecurrence : Obligations.ScheduleFollowsTheRecurrence := by
  intro sbox key nk nr hp
  obtain ⟨hnk, hnr, -⟩ := tablePair_bounds _ hp
  refine ⟨keyExpansion_seed sbox key hnr, fun w => ⟨?_, fun h => keyExpansion_tail sbox _ h w.isLt⟩⟩
  intro hlo hhi a c ha hc
  rw [keyExpansion_derived sbox _ hnk hlo hhi w.isLt, ← ha, ← hc]
  refine ⟨fun h => ?_, fun h6 h => ?_, fun h0 h4 => ?_⟩
  · rw [branch_round sbox _ h, roundBranch_eq]
    rfl
  · rw [branch_substitution sbox _ h6 h]
    rfl
  · rw [branch_neither sbox _ h0 h4]
    rfl

/-! ### EXPAND -/

/-- A configured pair is a pair of R110's table, as numbers. -/
theorem tablePair_of_configuredPair {nk nr : BitVec 4} (h : configuredPair nk nr = true) :
    (nk.toNat, nr.toNat) ∈ [(4, 10), (6, 12), (8, 14)] := by
  obtain ⟨rfl, rfl⟩ | ⟨rfl, rfl⟩ | ⟨rfl, rfl⟩ := of_decide_eq_true h
  · decide
  · decide
  · decide

/-- The cipher key is a function of the active latches (R129). -/
theorem keyBytes_congr {key key' : Vector Word 8} {nk : Nat}
    (h : ∀ i : Fin 8, i.val < nk → key[i.val] = key'[i.val]) : keyBytes key nk = keyBytes key' nk := by
  have htake : key.toList.take nk = key'.toList.take nk :=
    List.ext_getElem (by simp) fun i hi _ => by
      have hi : i < nk ∧ i < 8 := by simpa using hi
      simpa using h ⟨i, hi.2⟩ hi.1
  rw [keyBytes, htake, keyBytes]

/-- The schedule is a function of NK, NR and the active latches (R131). -/
theorem blockSchedule_congr (sbox : Byte → Byte) {b c : Block} (hnk : b.nk = c.nk) (hnr : b.nr = c.nr)
    (hkey : ∀ i : Fin 8, i.val < b.nk.toNat → b.key[i.val] = c.key[i.val]) :
    blockSchedule sbox b = blockSchedule sbox c := by
  rw [blockSchedule, keyBytes_congr hkey, hnk, hnr, blockSchedule]

/-- EXPAND while unconfigured. -/
theorem exec_expand_notConfigured {kbytes : Nat} {s : State} (hf : s.block.fatal = false)
    (hc : s.block.cfgValid = false) :
    exec (.expand kbytes) s = writeDone (failExpand .notConfigured s.block) s := by
  rw [exec, execExpand, underLock_unlocked _ _ hf, performExpand, if_pos hc]

/-- EXPAND with another byte count than the configured one. -/
theorem exec_expand_keylenMismatch {kbytes : Nat} {s : State} (hf : s.block.fatal = false)
    (hc : s.block.cfgValid = true) (hk : kbytes ≠ 4 * s.block.nk.toNat) :
    exec (.expand kbytes) s = writeDone (failExpand .keylenMismatch s.block) s := by
  rw [exec, execExpand, underLock_unlocked _ _ hf, performExpand, if_neg (by simp [hc]), if_pos hk]

/-- Settles O49: the schedule a successful EXPAND writes begins with its seed. -/
theorem seedWordsEqualTheKey : Obligations.SeedWordsEqualTheKey := by
  intro kbytes s t _ h he i hi
  obtain ⟨⟨-, -, -, hpair⟩, rfl⟩ := exec_expand_succeeds h he
  obtain ⟨-, hnr, -⟩ := tablePair_bounds _ (tablePair_of_configuredPair hpair)
  exact keyExpansion_seed Config.SBOX s.block.key hnr i hi

/-- Settles O50: both EXPANDs write the schedule of their block. -/
theorem expandDependsOnlyOnActiveKey : Obligations.ExpandDependsOnlyOnActiveKey := by
  intro kbytes s u t v hnk hnr hkey hs hu ht hv
  obtain ⟨-, rfl⟩ := exec_expand_succeeds hs ht
  obtain ⟨-, rfl⟩ := exec_expand_succeeds hu hv
  exact blockSchedule_congr Config.SBOX hnk hnr hkey

/-- Settles O45: the premises are those of a block that is ready; the free values are the next ones. -/
theorem expandWritesTheSchedule : Obligations.ExpandWritesTheSchedule := by
  intro kbytes s hf hc hpair hk
  exact ⟨Config.freeW s.freeCount, Config.freeWord s.freeCount, s.freeCount + 1,
    exec_expand_ready ⟨hf, hc, hk, decide_eq_true hpair⟩⟩

/-- Settles O46: NOT_CONFIGURED is tested before KEYLEN_MISMATCH. -/
theorem expandFailures : Obligations.ExpandFailures := fun _ _ hf =>
  ⟨fun hc => exec_expand_notConfigured hf hc, fun hc hk => exec_expand_keylenMismatch hf hc hk⟩

end Sys2Proof.Machine
end

section
/-! PROOFS. The two error mechanisms (60_exceptions.md): which transactions end in a bus error and with which cause, what
a command leaves in ERR, what each failure writes, and the block under the fatal lock. -/

namespace Sys2Proof.Machine

/-- Settles O11. -/
theorem idleStepKeepsState : Obligations.IdleStepKeepsState := fun _ hp => step_nil hp

/-- Settles O18. -/
theorem errorCodes : Obligations.ErrorCodes := ⟨rfl, rfl, rfl, rfl, rfl, rfl⟩

/-! ### Bus errors -/

/-- The two low bits of an offset as a remainder. -/
theorem aligned_iff (a : BitVec 10) : a.extractLsb' 0 2 = 0 ↔ a.toNat % 4 = 0 := by
  rw [extract_eq_iff]
  simp

/-- Every register stands in one of the three ranges of the map (20_memory.md R44). -/
theorem offset_in_map (r : Reg) : r.offset.toNat < 0x010 ∨
    (0x020 ≤ r.offset.toNat ∧ r.offset.toNat ≤ 0x03C) ∨ (0x100 ≤ r.offset.toNat ∧ r.offset.toNat ≤ 0x1EC) := by
  cases r with
  | key k =>
    have ha := (eq_key_offset_iff _ k).1 rfl
    omega
  | rk w =>
    have ha := (eq_rk_offset_iff _ w).1 rfl
    omega
  | cmd | status | cfg | mulxRes => exact .inl (by decide)

/-- The offsets of the registers that the host reads and does not write (20_memory.md R44). -/
theorem readOnly_register {a : BitVec 10} (h4 : a.toNat % 4 = 0)
    (h : (0x004 ≤ a.toNat ∧ a.toNat ≤ 0x00C) ∨ (0x100 ≤ a.toNat ∧ a.toNat ≤ 0x1EC)) :
    a = Reg.status.offset ∨ a = Reg.cfg.offset ∨ a = Reg.mulxRes.offset ∨ ∃ w, a = (Reg.rk w).offset := by
  obtain hlow | hhigh := h
  · have hcases : a.toNat = 0x004 ∨ a.toNat = 0x008 ∨ a.toNat = 0x00C := by omega
    obtain h | h | h := hcases
    · exact .inl (BitVec.eq_of_toNat_eq h)
    · exact .inr (.inl (BitVec.eq_of_toNat_eq h))
    · exact .inr (.inr (.inl (BitVec.eq_of_toNat_eq h)))
  · refine .inr (.inr (.inr ⟨⟨(a.toNat - 0x100) / 4, by omega⟩, (eq_rk_offset_iff a _).2 ?_⟩))
    dsimp only
    omega

/-- The offsets of the registers that the host writes and does not read (20_memory.md R44). -/
theorem writeOnly_register {a : BitVec 10} (h4 : a.toNat % 4 = 0)
    (h : a.toNat = 0x000 ∨ (0x020 ≤ a.toNat ∧ a.toNat ≤ 0x03C)) :
    a = Reg.cmd.offset ∨ ∃ k, a = (Reg.key k).offset := by
  obtain hcmd | hkey := h
  · exact .inl (BitVec.eq_of_toNat_eq hcmd)
  · refine .inr ⟨⟨(a.toNat - 0x020) / 4, by omega⟩, (eq_key_offset_iff a _).2 ?_⟩
    dsimp only
    omega

section

variable {t : BusTxn}

theorem decodeTxn_size (hsize : t.size ≠ 2) : decodeTxn t = .error .size := if_pos hsize

theorem decodeTxn_align (hsize : t.size = 2) (h4 : t.addr.toNat % 4 ≠ 0) : decodeTxn t = .error .align := by
  rw [decodeTxn, if_neg (not_not.2 hsize), if_pos (mt (aligned_iff t.addr).1 h4)]

/-- An aligned transaction of 4 bytes is decided by what the map holds at its offset. -/
theorem decodeTxn_aligned (hsize : t.size = 2) (h4 : t.addr.toNat % 4 = 0) :
    decodeTxn t = (regAt t.addr).elim (.error .unmapped) (accessOf t.we t.wdata) := by
  rw [decodeTxn, if_neg (not_not.2 hsize), if_neg (not_not.2 ((aligned_iff t.addr).2 h4))]
  cases regAt t.addr <;> rfl

/-- A transaction of 4 bytes at a register's offset is an access of that register. -/
theorem decodeTxn_of_offset {r : Reg} (hsize : t.size = 2) (haddr : t.addr = r.offset) :
    decodeTxn t = accessOf t.we t.wdata r := by
  have h4 : t.addr.toNat % 4 = 0 := (aligned_iff t.addr).1 (haddr ▸ offset_aligned r)
  rw [decodeTxn_aligned hsize h4, haddr, regAt_offset]
  rfl

theorem decodeTxn_unmapped (hsize : t.size = 2) (h4 : t.addr.toNat % 4 = 0)
    (hmap : ¬(t.addr.toNat < 0x010 ∨ (0x020 ≤ t.addr.toNat ∧ t.addr.toNat ≤ 0x03C) ∨
      (0x100 ≤ t.addr.toNat ∧ t.addr.toNat ≤ 0x1EC))) : decodeTxn t = .error .unmapped := by
  rw [decodeTxn_aligned hsize h4]
  match hr : regAt t.addr with
  | none => rfl
  | some r =>
    have haddr := (regAt_eq_some_iff t.addr ((aligned_iff t.addr).2 h4) r).1 hr
    exact absurd (haddr ▸ offset_in_map r) hmap

theorem decodeTxn_write_readOnly (hwe : t.we = true) (hsize : t.size = 2) (h4 : t.addr.toNat % 4 = 0)
    (h : (0x004 ≤ t.addr.toNat ∧ t.addr.toNat ≤ 0x00C) ∨ (0x100 ≤ t.addr.toNat ∧ t.addr.toNat ≤ 0x1EC)) :
    decodeTxn t = .error .direction := by
  obtain ha | ha | ha | ⟨w, ha⟩ := readOnly_register h4 h
  all_goals
    rw [decodeTxn_of_offset hsize ha, hwe]
    rfl

theorem decodeTxn_read_writeOnly (hwe : t.we = false) (hsize : t.size = 2) (h4 : t.addr.toNat % 4 = 0)
    (h : t.addr.toNat = 0x000 ∨ (0x020 ≤ t.addr.toNat ∧ t.addr.toNat ≤ 0x03C)) :
    decodeTxn t = .error .direction := by
  obtain ha | ⟨k, ha⟩ := writeOnly_register h4 h
  all_goals
    rw [decodeTxn_of_offset hsize ha, hwe]
    rfl

theorem decodeTxn_read_rk (hwe : t.we = false) (hsize : t.size = 2) {w : Fin 60}
    (h : t.addr.toNat = 0x100 + 4 * w.val) : decodeTxn t = .ok (.rdRk w) := by
  rw [decodeTxn_of_offset hsize ((eq_rk_offset_iff t.addr w).2 h), hwe]
  rfl

end

/-- Settles O15: the decoder finds the first four causes, and a read of RK that it admits the last two. -/
theorem busErrorCauseAndPriority : Obligations.BusErrorCauseAndPriority := by
  intro s t rest hp hr
  refine ⟨fun hsize => step_txn_error hp hr (decodeTxn_size hsize),
    fun hsize h4 => step_txn_error hp hr (decodeTxn_align hsize h4),
    fun hsize h4 hmap => step_txn_error hp hr (decodeTxn_unmapped hsize h4 hmap),
    fun hsize h4 hdir => step_txn_error hp hr ?_, fun w hsize hwe haddr => ?_⟩
  · obtain ⟨hwe, h⟩ | ⟨hwe, h⟩ := hdir
    · exact decodeTxn_write_readOnly hwe hsize h4 h
    · exact decodeTxn_read_writeOnly hwe hsize h4 h
  · rw [step_txn_ok hp hr (decodeTxn_read_rk hwe hsize haddr)]
    obtain ⟨hinvalid, hrange, -⟩ := roundKeyRead { s with pending := rest } w
    exact ⟨hinvalid, hrange⟩

/-- An instruction of a transaction that records a bus error does nothing else (60_exceptions.md R158). -/
theorem exec_txn_busError {q : BusTxn} {i : Instr} {s t : State} {c : BusCause} (hd : decodeTxn q = .ok i)
    (h : exec i s = .next t) (ho : t.outcomes = s.outcomes ++ [.busError c]) : t = s.respond (.busError c) := by
  obtain ⟨v, -, -, he⟩ | ⟨k, v, -, -, rfl⟩ | ⟨-, -, -, ⟨v, rfl⟩ | ⟨c', rfl⟩⟩ := exec_txn_cases hd h
  · simp [he.outcomes_eq] at ho
  · simp at ho
  · simp at ho
  · obtain rfl : c' = c := by simpa using ho
    rfl

/-- A step that records a bus error takes one transaction and only answers it. -/
theorem step_busError {s u : State} {c : BusCause} (h : step s = .next u)
    (ho : u.outcomes = s.outcomes ++ [.busError c]) :
    ∃ q rest, s.pending = .txn q :: rest ∧ u = State.respond { s with pending := rest } (.busError c) := by
  cases step_cases h with
  | idle hp => simp at ho
  | rstRise p rest hp => simp at ho
  | rstFall rest hp => simp at ho
  | underReset q rest hp hr => simp at ho
  | busError q rest c' hp hr hd =>
    obtain rfl : c' = c := by simpa using ho
    exact ⟨q, rest, hp, rfl⟩
  | run q rest i _ hp hr hd he => exact ⟨q, rest, hp, exec_txn_busError hd he ho⟩

/-- Settles O16. -/
theorem busErrorChangesNoState : Obligations.BusErrorChangesNoState := by
  intro s u c h ho
  obtain ⟨q, rest, hp, rfl⟩ := step_busError h ho
  exact ⟨rfl, rfl, rfl, by rw [hp]; rfl⟩

/-! ### Command errors -/

/-- The code a CMD write leaves, in the order of 60_exceptions.md R152. -/
def commandCode (v : Reg32) (b : Block) : ErrCode :=
  if b.fatal then .locked
  else match decodeCommand v with
    | .error _ => .illegalCmd
    | .ok (.config klen) => if klen = 128 ∨ klen = 192 ∨ klen = 256 then .none else .badKeylen
    | .ok (.expand kbytes) =>
      if b.cfgValid = false then .notConfigured
      else if kbytes = 4 * b.nk.toNat then .none
      else .keylenMismatch
    | .ok (.mulx _ _) => .none

/-- The code of an unlocked CONFIG. -/
theorem configBlock_err (klen : Nat) (b : Block) : (configBlock klen b).err =
    if klen = 128 ∨ klen = 192 ∨ klen = 256 then .none else .badKeylen := by
  have hnone := keyParams_eq_none_iff klen
  cases hp : keyParams klen with
  | none =>
    obtain ⟨h1, h2, h3⟩ := hnone.1 hp
    rw [(configBlock_unsupported b hp).2, if_neg (by simp [h1, h2, h3])]
  | some p =>
    rw [configBlock_of_some b hp, if_pos]
    simp only [hp, reduceCtorEq, false_iff] at hnone
    omega

namespace CmdEffect

variable {v : Reg32} {s t : State}

/-- Every command leaves its code. -/
theorem err_eq (h : CmdEffect v s t) : t.block.err = commandCode v s.block := by
  cases h with
  | locked hf => simp [commandCode, hf]
  | illegal r hf hd => simp [commandCode, hf, hd]
  | config klen hf hd => simp [commandCode, hf, hd, configBlock_err]
  | notConfigured kbytes hf hd hc => simp [commandCode, hf, hd, hc]
  | keylenMismatch kbytes hf hd hc hk => simp [commandCode, hf, hd, hc, hk]
  | expanded kbytes hf hd hc hk hp => simp [commandCode, hf, hd, hc, hk]
  | mulx b n hf hd => simp [commandCode, hf, hd]

/-- What a command that leaves `LOCKED` or `ILLEGAL_CMD` writes (60_exceptions.md R153). -/
theorem block_of_locked_or_illegal (h : CmdEffect v s t) (he : t.block.err = .locked ∨ t.block.err = .illegalCmd) :
    t.block = { s.block with err := t.block.err } := by
  cases h with
  | locked hf | illegal r hf hd => rfl
  | config klen hf hd => simp [configBlock_err, ite_eq_iff] at he
  | _ => simp at he

/-- What a command that leaves `BAD_KEYLEN` writes (60_exceptions.md R153, 41_configuration.md R112). -/
theorem block_of_badKeylen (h : CmdEffect v s t) (he : t.block.err = .badKeylen) :
    t.block = { s.block with
      err := .badKeylen, fatal := true, cfgValid := false, nk := 0, nr := 0, schedValid := false } := by
  cases h with
  | config klen hf hd =>
    cases hp : keyParams klen with
    | none => exact configBlock_of_none s.block hp
    | some p => simp [configBlock_of_some _ hp] at he
  | _ => simp at he

/-- What an EXPAND that fails writes (60_exceptions.md R153, 42_key_expansion.md R129). -/
theorem block_of_failed_expand (h : CmdEffect v s t)
    (he : t.block.err = .notConfigured ∨ t.block.err = .keylenMismatch) :
    t.block = { s.block with err := t.block.err, schedValid := false } := by
  cases h with
  | notConfigured kbytes hf hd hc | keylenMismatch kbytes hf hd hc hk => rfl
  | config klen hf hd => simp [configBlock_err, ite_eq_iff] at he
  | _ => simp at he

end CmdEffect

/-- Settles O33: only a CMD write that is admitted reaches ERR, and it leaves its code. -/
theorem errAfterEachTransaction : Obligations.ErrAfterEachTransaction := by
  intro s t q rest hp hr h
  refine ⟨fun hq => ?_, fun v hd => ?_⟩
  · cases step_txn_cases hp h with
    | kept hq hb => rw [hb]
    | keyWrite k v hr hd hb => rw [hb]
    | command v hr hd he => exact absurd hd (hq v)
  · have hcode : t.block.err = commandCode v s.block := (step_wrCmd_cases hp hr hd h).err_eq
    rw [hcode, commandCode]
    refine ⟨fun hf => if_pos hf, fun hf => ?_⟩
    rw [if_neg (by simp [hf])]
    exact ⟨fun r hv => by rw [hv], fun klen hv => by rw [hv], fun kbytes hv => by rw [hv],
      fun b n hv => by rw [hv]⟩

/-- Settles O34: each failure's effect on the block. -/
theorem failureWritesOnlyItsList : Obligations.FailureWritesOnlyItsList := by
  intro v s t h
  have he : CmdEffect v s t := execWrCmd_cases h
  exact ⟨he.block_of_locked_or_illegal, he.block_of_badKeylen, he.block_of_failed_expand⟩

/-! ### The fatal lock -/

/-- Every command under the lock (60_exceptions.md R155). -/
theorem exec_command_locked {s : State} (hf : s.block.fatal = true) (c : Command) :
    exec c.toInstr s = writeDone (failCommand .locked s.block) s := by
  cases c with
  | config klen => exact underLock_locked _ s hf
  | expand kbytes => exact underLock_locked _ s hf
  | mulx b n => exact underLock_locked _ s hf

/-- Settles O29: commands fail, no schedule is valid, and the other transactions do not look at the lock. -/
theorem behaviourUnderTheLock : Obligations.BehaviourUnderTheLock := by
  intro s hf hlock
  obtain ⟨-, hinvalid⟩ := hlock hf
  refine ⟨fun v => underLock_locked _ s hf, fun c => exec_command_locked hf c, readDone_eq _ s, readDone_eq _ s,
    readDone_eq _ s, fun k v => exec_wrKey k v s, fun w => ?_, fun t h ht => ?_⟩
  · exact (roundKeyRead s w).1 hinvalid
  · exact (fatalSetAndClearedOnlyBy s t h).2 hf ht

end Sys2Proof.Machine
end

section
/-! PROOFS. Reset and hazards (70_reset_and_hazards.md): every step completes, what is read after reset, what happens
while `rst` is high, and the stale schedule after a KEY write. -/

namespace Sys2Proof.Machine

/-- A step on a transaction completes: dropped under reset, a bus error, or an instruction that completes. -/
theorem step_txn_completes {s : State} {q : BusTxn} {rest : List PortEvent} (hs : ConfigInv s.block)
    (hp : s.pending = .txn q :: rest) : Completes (step s) := by
  cases hr : s.rst with
  | true => exact ⟨_, step_txn_rst hp hr⟩
  | false =>
    match hd : decodeTxn q with
    | .error c => exact ⟨_, step_txn_error hp hr hd⟩
    | .ok i =>
      rw [step_txn_ok hp hr hd]
      exact exec_txn_completes (s := { s with pending := rest }) hs hd

/-- Settles O12, by the oldest event at the port. -/
theorem everyStepCompletes : Obligations.EveryStepCompletes := by
  intro s hs
  match hp : s.pending with
  | [] => exact ⟨_, step_nil hp⟩
  | .rstRise p :: rest => exact ⟨_, step_rstRise hp⟩
  | .rstFall :: rest => exact ⟨_, step_rstFall hp⟩
  | .txn q :: rest => exact step_txn_completes hs hp

/-- The composed registers of the block after reset (10_state.md R36). -/
theorem registers_atReset (a : Word) (c : BitVec 6) :
    statusReg (Block.atReset a c) = 0x00000000 ∧ cfgReg (Block.atReset a c) = 0x00000004 ∧
      mulxResReg (Block.atReset a c) = 0x00000000 := by
  refine ⟨BitVec.eq_of_toNat_eq (statusReg_toNat _), BitVec.eq_of_toNat_eq ?_, mulxResReg_eq _⟩
  rw [cfgReg_toNat, nwords_of_unconfigured rfl]
  rfl

/-- Settles O25: the registers' values after reset, the reset values of O24, and no valid schedule to read. -/
theorem readsAfterReset : Obligations.ReadsAfterReset := by
  obtain ⟨hstatus, hcfg, hmulx⟩ := registers_atReset Word.zero 0
  obtain ⟨-, -, -, hvalues⟩ := resetValues
  obtain ⟨-, -, -, hfatal, -, hinvalid, -, hkey, -⟩ := hvalues Word.zero 0
  refine ⟨?_, ?_, ?_, hfatal, hinvalid, hkey, fun w => (roundKeyRead State.reset w).1 hinvalid⟩
  · rw [← hstatus]
    exact readDone_eq _ State.reset
  · rw [← hcfg]
    exact readDone_eq _ State.reset
  · rw [← hmulx]
    exact readDone_eq _ State.reset

/-- Settles O26. -/
theorem nothingAcceptedUnderReset : Obligations.NothingAcceptedUnderReset :=
  ⟨fun _ _ _ hp hr => step_txn_rst hp hr, fun _ _ hp => step_rstFall hp⟩

/-- Settles O55: the read looks at the flag, the configuration and RK, and a KEY write leaves all three. -/
theorem staleKeyReadsPreviousSchedule : Obligations.StaleKeyReadsPreviousSchedule := by
  intro k v w s t h hvalid hbelow
  rw [exec_wrKey] at h
  cases h
  exact (roundKeyRead _ w).2.2 hvalid hbelow

end Sys2Proof.Machine
end

section
/-! PROOFS. The schedules of published keys (95_test_vectors.md section 2.3). The recurrence of 42_key_expansion.md R124
has one solution for a key, so a table of words is the key's expansion as soon as each of its words meets the
recurrence: a table is checked word by word, and no expansion is computed. -/

namespace Sys2Proof.Machine

/-! ### The recurrence has one solution -/

/-- A sequence begins with the words of a key (R122) and has each later word from those before it (R124, R127). -/
@[reducible] def FollowsRecurrence (sbox : Byte → Byte) (keySeq : List Byte) (nk total : Nat)
    (words : Nat → Word) : Prop :=
  (∀ w < nk, words w = wordOfBytes keySeq w) ∧
    ∀ w < total, nk ≤ w → words w = (branch sbox nk w (words (w - 1))).xor (words (w - nk))

/-- The first `Nk` words, for any key bytes (R122). -/
theorem keyExpansion_seed_bytes (sbox : Byte → Byte) (bytes : List Byte) {nk nr w : Nat} (hnr : nk ≤ scheduleWords nr)
    (hw : w < nk) (h60 : w < 60) : (keyExpansion sbox bytes nk nr)[w] = wordOfBytes bytes w := by
  have hstart : schedAt (expandStart bytes nk).sched w = wordOfBytes bytes w := by
    rw [expandStart, seedSchedule_at _ _ _ h60, if_pos hw]
  rw [keyExpansion_get, if_pos (hw.trans_le hnr), expandIters_sched_below _ _ _ _ _ hw, hstart]

/-- A sequence that follows the recurrence is the expansion, by strong induction on the word. -/
theorem keyExpansion_unique {sbox : Byte → Byte} {bytes : List Byte} {nk nr : Nat} {words : Nat → Word}
    (hp : (nk, nr) ∈ [(4, 10), (6, 12), (8, 14)])
    (h : FollowsRecurrence sbox bytes nk (scheduleWords nr) words) {w : Nat} (hw : w < scheduleWords nr)
    (h60 : w < 60) : (keyExpansion sbox bytes nk nr)[w] = words w := by
  obtain ⟨hnk, hnr, -⟩ := tablePair_bounds _ hp
  obtain ⟨hseed, hstep⟩ := h
  induction w using Nat.strong_induction_on with
  | _ w ih =>
    rcases Nat.lt_or_ge w nk with hlo | hlo
    · rw [keyExpansion_seed_bytes sbox bytes hnr hlo h60, hseed w hlo]
    · rw [keyExpansion_derived sbox bytes hnk hlo hw h60, ih (w - 1) (by omega) (by omega) (by omega),
        ih (w - nk) (by omega) (by omega) (by omega), hstep w hw hlo]

/-! ### The published tables -/

/-- Word `w` of a table of packed words. -/
def tableWord (table : List Reg32) (w : Nat) : Word := unpack (table.getD w 0)

/-- A table that follows the recurrence holds what the registers of the expansion read. -/
theorem pack_keyExpansion {sbox : Byte → Byte} {bytes : List Byte} {nk nr : Nat} (table : List Reg32)
    (hp : (nk, nr) ∈ [(4, 10), (6, 12), (8, 14)])
    (h : FollowsRecurrence sbox bytes nk (scheduleWords nr) (tableWord table)) {w : Nat} (hw : w < scheduleWords nr)
    (h60 : w < 60) : pack (keyExpansion sbox bytes nk nr)[w] = table.getD w 0 := by
  rw [keyExpansion_unique hp h hw h60, tableWord, pack_unpack]

/-- The words of the schedule of the all-zero 128-bit key. -/
def scheduleZ128 : List Reg32 :=
  [0x00000000, 0x00000000, 0x00000000, 0x00000000, 0x62636363, 0x62636363, 0x62636363, 0x62636363,
   0x9b9898c9, 0xf9fbfbaa, 0x9b9898c9, 0xf9fbfbaa, 0x90973450, 0x696ccffa, 0xf2f45733, 0x0b0fac99,
   0xee06da7b, 0x876a1581, 0x759e42b2, 0x7e91ee2b, 0x7f2e2b88, 0xf8443e09, 0x8dda7cbb, 0xf34b9290,
   0xec614b85, 0x1425758c, 0x99ff0937, 0x6ab49ba7, 0x21751787, 0x3550620b, 0xacaf6b3c, 0xc61bf09b,
   0x0ef90333, 0x3ba96138, 0x97060a04, 0x511dfa9f, 0xb1d4d8e2, 0x8a7db9da, 0x1d7bb3de, 0x4c664941,
   0xb4ef5bcb, 0x3e92e211, 0x23e951cf, 0x6f8f188e]

/-- The words of the schedule of the 128-bit key A1. -/
def scheduleA1 : List Reg32 :=
  [0x2b7e1516, 0x28aed2a6, 0xabf71588, 0x09cf4f3c, 0xa0fafe17, 0x88542cb1, 0x23a33939, 0x2a6c7605,
   0xf2c295f2, 0x7a96b943, 0x5935807a, 0x7359f67f, 0x3d80477d, 0x4716fe3e, 0x1e237e44, 0x6d7a883b,
   0xef44a541, 0xa8525b7f, 0xb671253b, 0xdb0bad00, 0xd4d1c6f8, 0x7c839d87, 0xcaf2b8bc, 0x11f915bc,
   0x6d88a37a, 0x110b3efd, 0xdbf98641, 0xca0093fd, 0x4e54f70e, 0x5f5fc9f3, 0x84a64fb2, 0x4ea6dc4f,
   0xead27321, 0xb58dbad2, 0x312bf560, 0x7f8d292f, 0xac7766f3, 0x19fadc21, 0x28d12941, 0x575c006e,
   0xd014f9a8, 0xc9ee2589, 0xe13f0cc8, 0xb6630ca6]

/-- The words of the schedule of the 192-bit key A2. -/
def scheduleA2 : List Reg32 :=
  [0x8e73b0f7, 0xda0e6452, 0xc810f32b, 0x809079e5, 0x62f8ead2, 0x522c6b7b, 0xfe0c91f7, 0x2402f5a5,
   0xec12068e, 0x6c827f6b, 0x0e7a95b9, 0x5c56fec2, 0x4db7b4bd, 0x69b54118, 0x85a74796, 0xe92538fd,
   0xe75fad44, 0xbb095386, 0x485af057, 0x21efb14f, 0xa448f6d9, 0x4d6dce24, 0xaa326360, 0x113b30e6,
   0xa25e7ed5, 0x83b1cf9a, 0x27f93943, 0x6a94f767, 0xc0a69407, 0xd19da4e1, 0xec1786eb, 0x6fa64971,
   0x485f7032, 0x22cb8755, 0xe26d1352, 0x33f0b7b3, 0x40beeb28, 0x2f18a259, 0x6747d26b, 0x458c553e,
   0xa7e1466c, 0x9411f1df, 0x821f750a, 0xad07d753, 0xca400538, 0x8fcc5006, 0x282d166a, 0xbc3ce7b5,
   0xe98ba06f, 0x448c773c, 0x8ecc7204, 0x01002202]

/-- The words of the schedule of the 256-bit key A3. -/
def scheduleA3 : List Reg32 :=
  [0x603deb10, 0x15ca71be, 0x2b73aef0, 0x857d7781, 0x1f352c07, 0x3b6108d7, 0x2d9810a3, 0x0914dff4,
   0x9ba35411, 0x8e6925af, 0xa51a8b5f, 0x2067fcde, 0xa8b09c1a, 0x93d194cd, 0xbe49846e, 0xb75d5b9a,
   0xd59aecb8, 0x5bf3c917, 0xfee94248, 0xde8ebe96, 0xb5a9328a, 0x2678a647, 0x98312229, 0x2f6c79b3,
   0x812c81ad, 0xdadf48ba, 0x24360af2, 0xfab8b464, 0x98c5bfc9, 0xbebd198e, 0x268c3ba7, 0x09e04214,
   0x68007bac, 0xb2df3316, 0x96e939e4, 0x6c518d80, 0xc814e204, 0x76a9fb8a, 0x5025c02d, 0x59c58239,
   0xde136967, 0x6ccc5a71, 0xfa256395, 0x9674ee15, 0x5886ca5d, 0x2e2f31d7, 0x7e0af1fa, 0x27cf73c3,
   0x749c47ab, 0x18501dda, 0xe2757e4f, 0x7401905a, 0xcafaaae3, 0xe4d59b34, 0x9adf6ace, 0xbd10190d,
   0xfe4890d1, 0xe6188d0b, 0x046df344, 0x706c631e]

/-- Settles O52: the four tables of the vectors follow the recurrence with the FIPS-197 table, and hold the words. -/
theorem referenceSchedules : Obligations.ReferenceSchedules := by
  have hz : FollowsRecurrence fipsSbox (List.replicate 16 0) 4 44 (tableWord scheduleZ128) := by decide
  exact ⟨pack_keyExpansion scheduleZ128 (by decide) hz (by decide) _,
    pack_keyExpansion scheduleZ128 (by decide) hz (by decide) _,
    pack_keyExpansion scheduleA1 (by decide) (by decide) (by decide) _,
    pack_keyExpansion scheduleA2 (by decide) (by decide) (by decide) _,
    pack_keyExpansion scheduleA3 (by decide) (by decide) (by decide) _⟩

end Sys2Proof.Machine
end
